-- ==== Sys2Proof/Word.lean ====
section
/-! DEFINITION. The block's word types: the byte, the 4-bit PixelIndex and the RGB triplet (spec/30_encoding.md R37 to R39). -/

namespace Sys2Proof

/-- One byte of `IN`, of a plane or of a colour channel; bit 7 is the most significant (00_scope.md section 4). -/
abbrev Byte := BitVec 8

/-- The 4-bit PixelIndex: bit 3 intensity, 2 red, 1 green, 0 blue (R38). -/
abbrev PixelIndex := BitVec 4

/-- One output unit, three unsigned bytes (R39). -/
structure Triplet where
  r : Byte
  g : Byte
  b : Byte
deriving DecidableEq, Repr

end Sys2Proof
end

