-- ==== Sys2Proof/Machine/Memory.lean ====
section
/-! DEFINITION. The input buffer as a list of (offset, byte) cells in one canonical form, and its operations (spec/20_memory.md R22, spec/10_state.md R18). -/

namespace Sys2Proof.Machine.Memory

/-- What an offset below `L` that no cell lists reads as. DESIGN CHOICE, unsafe (notes/assumptions/4.md):
a byte 00 the host supplied is not listed. -/
def unlistedByte : Byte := 0#8

/-- The byte at offset `a`. -/
def lookup : List Host.Cell → Nat → Byte
  | [], _ => unlistedByte
  | (k, b) :: m, a => if k = a then b else lookup m a

/-- Cells with byte `b` at offset `a` and every other offset as before, in canonical form. -/
def store : List Host.Cell → Nat → Byte → List Host.Cell
  | [], a, b => if b = unlistedByte then [] else [(a, b)]
  | (k, c) :: m, a, b =>
    if a < k then (if b = unlistedByte then (k, c) :: m else (a, b) :: (k, c) :: m)
    else if a = k then (if b = unlistedByte then m else (a, b) :: m)
    else (k, c) :: store m a b

/-- The cells of a sequence of bytes, the first at offset `a`. -/
def ofBytesFrom : Nat → List Byte → List Host.Cell
  | _, [] => []
  | a, b :: bs =>
    if b = unlistedByte then ofBytesFrom (a + 1) bs else (a, b) :: ofBytesFrom (a + 1) bs

/-- The cells of a loaded buffer, first byte at offset 0 (R43 LOAD). -/
def ofBytes (bs : List Byte) : List Host.Cell := ofBytesFrom 0 bs

/-- Offsets strictly rising from `lo`, all below `hi`, no cell equal to what an unlisted offset reads as. -/
def wfFrom (lo hi : Nat) : List Host.Cell → Bool
  | [] => true
  | (k, b) :: m => decide (lo ≤ k) && decide (k < hi) && b != unlistedByte && wfFrom (k + 1) hi m

/-- The canonical form of a buffer of `len` bytes. -/
def wf (m : List Host.Cell) (len : Nat) : Bool := wfFrom 0 len m

end Sys2Proof.Machine.Memory
end

