-- ==== Sys2Proof/Config.lean ====
section
/-! DEFINITION. What an implementation fixes: the parameter DIM_POLICY (spec/00_scope.md R4). The spec leaves no free value. -/

namespace Sys2Proof

/-- DIM_POLICY, which dimensions a header may have (R4, R46). -/
inductive DimPolicy where
  /-- Value 0, the spec's default: both dimensions at least 1. -/
  | positive
  /-- Value 1: exactly 40 byte-columns by 200 rows, as the original tool. -/
  | strict40x200
deriving DecidableEq, Repr

/-- The configuration of one block, fixed for its life (R4). -/
structure Config where
  dimPolicy : DimPolicy := .positive
deriving DecidableEq, Repr

end Sys2Proof
end

