-- ==== Sys2Proof/Machine/Layout.lean ====
section
/-! DEFINITION. The structural constants of the format and the places of the input record (spec/00_scope.md R5, spec/20_memory.md R23 to R25). -/

namespace Sys2Proof.Machine

/-- The header is 8 bytes (R5). -/
def headerLength : Nat := 8

/-- Four planes, in the order blue 0, green 1, red 2, intensity 3 (R5, R24). -/
def planeCount : Nat := 4

/-- The magic `50 49 43 00`, the first byte most significant (R35). -/
def magicWord : BitVec 32 := 0x50494300#32

/-- The palette's two constants (R5, R57). -/
def colourTerm : Byte := 0xAA#8
def intensityTerm : Byte := 0x55#8

/-- `Lreq = 8 + 4*N`, exact (R25, R42). -/
def requiredLength (n : BitVec 32) : Nat := headerLength + planeCount * n.toNat

/-- The offset of byte-index `i` in plane `k`, `8 + k*N + i`, exact (R24). -/
def planeOffset (n : BitVec 32) (k : Nat) (i : BitVec 32) : Nat :=
  headerLength + k * n.toNat + i.toNat

/-- The values DIM_POLICY has as a parameter (R4). -/
def dimPolicyCode : DimPolicy → Nat
  | .positive => 0
  | .strict40x200 => 1

/-- Which dimensions a policy accepts (R46). -/
def dimOk (p : DimPolicy) (c r : BitVec 16) : Bool :=
  match p with
  | .positive => decide (1 ≤ c.toNat) && decide (1 ≤ r.toNat)
  | .strict40x200 => decide (c.toNat = 40) && decide (r.toNat = 200)

end Sys2Proof.Machine
end

