-- ==== Sys2Proof/Machine/PalRom.lean ====
section
/-! DEFINITION. The palette: the adder rule and the 16 ROM entries (spec/43_palette.md R57, R58), and the packed 24-bit triplet (spec/30_encoding.md R39). -/

namespace Sys2Proof.Machine

/-- One colour channel: 0xAA for the colour bit plus 0x55 for intensity (R57); the sum never carries (R59). -/
def channel (colour intensity : Bool) : Byte :=
  (if colour then colourTerm else 0#8) + (if intensity then intensityTerm else 0#8)

/-- PALMAP by its rule (R57); no index is special (R60). -/
def palMap (x : PixelIndex) : Triplet :=
  { r := channel (x.getLsbD 2) (x.getLsbD 3)
    g := channel (x.getLsbD 1) (x.getLsbD 3)
    b := channel (x.getLsbD 0) (x.getLsbD 3) }

/-- The ROM's entries in index order, written out from the table of R58. -/
def palRomContents : Vector Triplet 16 :=
  #v[⟨0x00, 0x00, 0x00⟩, ⟨0x00, 0x00, 0xAA⟩, ⟨0x00, 0xAA, 0x00⟩, ⟨0x00, 0xAA, 0xAA⟩,
     ⟨0xAA, 0x00, 0x00⟩, ⟨0xAA, 0x00, 0xAA⟩, ⟨0xAA, 0xAA, 0x00⟩, ⟨0xAA, 0xAA, 0xAA⟩,
     ⟨0x55, 0x55, 0x55⟩, ⟨0x55, 0x55, 0xFF⟩, ⟨0x55, 0xFF, 0x55⟩, ⟨0x55, 0xFF, 0xFF⟩,
     ⟨0xFF, 0x55, 0x55⟩, ⟨0xFF, 0x55, 0xFF⟩, ⟨0xFF, 0xFF, 0x55⟩, ⟨0xFF, 0xFF, 0xFF⟩]

/-- `T = R << 16 | G << 8 | B` (R39). -/
def packTriplet (t : Triplet) : BitVec 24 :=
  (t.r.setWidth 24 <<< 16) ||| (t.g.setWidth 24 <<< 8) ||| t.b.setWidth 24

end Sys2Proof.Machine
end

