-- ==== Sys2Proof/Ports.lean ====
section
/-! DEFINITION. What stands at the block's inputs: the words of the six formats of spec/30_encoding.md R40, and the acts of the host (spec/10_state.md R7). -/

namespace Sys2Proof

/-- A word of one of the formats of R40, at exactly the width the format has. -/
inductive PortWord where
  /-- HOSTCMD: the 2-bit `CMD` the host presents. -/
  | hostCmd (cmd : BitVec 2)
  /-- PHASE2: the block's own `PHASE`, which selects PIXSTEP. -/
  | phase2 (phase : BitVec 2)
  /-- HDR64: the header word `H` (R35). -/
  | hdr64 (h : BitVec 64)
  /-- W1: `iiiiiiiirrrrrrrrggggggggbbbbbbbbsss`. -/
  | w1 (w : BitVec 35)
  /-- W8: `iiiiiiiirrrrrrrrggggggggbbbbbbbb`. -/
  | w8 (w : BitVec 32)
  /-- IDX4: `irgb`. -/
  | idx4 (x : PixelIndex)
deriving DecidableEq, Repr

/-- The formats of R40 by name. -/
inductive Format where
  | hostcmd | phase2 | hdr64 | w1 | w8 | idx4
deriving DecidableEq, Repr

/-- The format a word is written in. -/
def PortWord.format : PortWord → Format
  | .hostCmd _ => .hostcmd
  | .phase2 _ => .phase2
  | .hdr64 _ => .hdr64
  | .w1 _ => .w1
  | .w8 _ => .w8
  | .idx4 _ => .idx4

/-- One act of the host (R7). Each takes one step; an exhausted list of acts means `CMD = 00` from
then on. DESIGN CHOICE, unsafe (notes/assumptions/2.md). -/
inductive HostAct where
  /-- Presents `CMD` (R40): 01 START, 10 RESET, 11 reserved; 00 leaves the step to the block. -/
  | command (cmd : BitVec 2)
  /-- Places the whole input and sets `L` to its length (R43 LOAD, R86). -/
  | load (bytes : List Byte)
  /-- Changes one byte of the input, outside BUSY (R88). DESIGN CHOICE, safe (notes/assumptions/12.md). -/
  | writeByte (a : BitVec 64) (b : Byte)
  /-- The output consumer accepts nothing in this step (R70). DEDUCED, unsafe (notes/assumptions/13.md). -/
  | hold
  /-- Asks for HDRCHECK of one header word. DESIGN CHOICE, unsafe (notes/assumptions/5.md), as are the next three. -/
  | hdr64 (h : BitVec 64)
  /-- Asks for UNPACK1 of one operand word. -/
  | w1 (w : BitVec 35)
  /-- Asks for UNPACK8 of one operand word. -/
  | w8 (w : BitVec 32)
  /-- Asks for PALMAP of one PixelIndex. -/
  | idx4 (x : PixelIndex)
deriving DecidableEq, Repr

end Sys2Proof
end

