-- ==== Sys2Proof/Machine/State.lean ====
section
/-! DEFINITION. The block's state S0 to S10, the parameter it was built with, the host's remaining acts, and reset (spec/10_state.md R8 to R19, spec/70_reset_and_hazards.md R84). -/

namespace Sys2Proof.Machine

/-- `PHASE` (S0), codes 0 to 3 in this order (R9). -/
inductive Phase where
  | idle | busy | done | error
deriving DecidableEq, Repr

/-- `ERR_CODE` (S1), codes 0 to 3 in this order (R10). -/
inductive ErrCode where
  | none | badMagic | unsupportedDimensions | truncatedInput
deriving DecidableEq, Repr

/-- `PALROM` (S10): its entries, and the proof that they are the fixed contents (R19, R60).
DEDUCED, safe (notes/assumptions/14.md). -/
structure PalRom where
  entries : Vector Triplet 16
  fixed : entries = palRomContents
deriving DecidableEq, Repr

/-- The one ROM there is. -/
def PalRom.rom : PalRom := ⟨palRomContents, rfl⟩

/-- The record HDRCHECK returns (R48). -/
structure HdrResult where
  ok : Bool
  code : ErrCode
  offset : BitVec 64
  c : BitVec 16
  r : BitVec 16
  n : BitVec 32
deriving DecidableEq, Repr

/-- The value of the last datapath function the host asked for. The MODEL's own field, not the
spec's: DESIGN CHOICE, unsafe (notes/assumptions/5.md). -/
inductive DatapathResult where
  | none
  | header (h : HdrResult)
  | index (x : PixelIndex)
  | lanes (xs : Vector PixelIndex 8)
  | triplet (t : Triplet)
deriving DecidableEq, Repr

/-- Everything the machine holds. S0 to S10 are the spec's; `cfg` is its parameter, which no step
writes (notes/assumptions/1.md); `host` and `result` are the model's own (notes/assumptions/2.md, 5.md). -/
structure State where
  /-- S0 `PHASE` (R9). -/
  phase : Phase := .idle
  /-- S1 `ERR_CODE` (R10). -/
  errCode : ErrCode := .none
  /-- S2 `ERR_OFFSET` (R11). -/
  errOffset : BitVec 64 := 0
  /-- S3 `COLUMNS`, in byte-columns (R12). -/
  columns : BitVec 16 := 0
  /-- S4 `ROWS`, in pixel rows (R13). -/
  rows : BitVec 16 := 0
  /-- S5 `N`, bytes per plane (R14). -/
  n : BitVec 32 := 0
  /-- S6 `BI`, the byte-index cursor (R15). -/
  bi : BitVec 32 := 0
  /-- S7 `SH`, the shift cursor (R16). -/
  sh : BitVec 3 := 7
  /-- S8 `OUT`, first emitted triplet first (R17). -/
  out : List Triplet := []
  /-- S9 `IN` in canonical form (R18). No reset value in the spec: DESIGN CHOICE, unsafe (notes/assumptions/3.md). -/
  inBuf : List Host.Cell := []
  /-- S9 `L`, the length of `IN` (R18). No reset value in the spec: DESIGN CHOICE, unsafe (notes/assumptions/3.md). -/
  len : BitVec 64 := 0
  /-- S10 `PALROM` (R19). -/
  palRom : PalRom := PalRom.rom
  /-- The parameter DIM_POLICY (R4). DESIGN CHOICE, safe (notes/assumptions/1.md). -/
  cfg : Config := {}
  /-- The host's acts still to come. DESIGN CHOICE, unsafe (notes/assumptions/2.md). -/
  host : List HostAct := []
  /-- The datapath result port. DESIGN CHOICE, unsafe (notes/assumptions/5.md). -/
  result : DatapathResult := .none
deriving DecidableEq, Repr

/-- Why a step stops with a fault. -/
inductive Fault where
  /-- A read, or a host byte write, at offset `a >= L`, which the spec says does not exist (R34).
  Raised by START's and PIXSTEP's reads and by the host act `writeByte`. Safe. -/
  | outOfBounds (a : Nat)
deriving DecidableEq, Repr

/-- Why the model refuses a step. -/
inductive Refusal where
  /-- An instruction without a meaning in exec. No arm raises it in this model. Safe. -/
  | notModelled (mnemonic : String)
  /-- START while `PHASE = BUSY` has no meaning (R63, R87). Raised by START. Safe. -/
  | startWhileBusy
  /-- `CMD = 11` is reserved (R41). Raised by the step. Safe. -/
  | reservedCommand
  /-- The host writes `IN` or `L` while `PHASE = BUSY`, which has no defined result (R88). Raised by
  the host acts `load` and `writeByte`. Safe. -/
  | inputWriteWhileBusy
  /-- A load whose byte count does not fit the 64-bit `L` (R18). Raised by the host act `load`. Safe
  (notes/assumptions/11.md). -/
  | inputTooLong
deriving DecidableEq, Repr

/-- A block built with policy `p`, right after power-up reset (R84). -/
def State.powerUp (p : DimPolicy) : State := { cfg := { dimPolicy := p } }

/-- The machine right after reset, DIM_POLICY at the spec's default POSITIVE (R4, R84). -/
def State.reset : State := State.powerUp .positive

end Sys2Proof.Machine
end

