-- ==== Sys2Proof/Machine/Flags.lean ====
section
/-! DEFINITION. The codes of PHASE and ERR_CODE and the STATUS view (spec/10_state.md R9, R10, R21). The block has no condition codes (R8). -/

namespace Sys2Proof.Machine

/-- The 2-bit code of `PHASE` (R9). -/
def phaseCode : Phase → BitVec 2
  | .idle => 0
  | .busy => 1
  | .done => 2
  | .error => 3

/-- The 2-bit code of `ERR_CODE` (R10). -/
def errCodeCode : ErrCode → BitVec 2
  | .none => 0
  | .badMagic => 1
  | .unsupportedDimensions => 2
  | .truncatedInput => 3

/-- The read-only word STATUS: PHASE in 1:0, ERR_CODE in 3:2, bits 31:4 read as 0 (R21). -/
def State.status (s : State) : BitVec 32 :=
  (0#28 ++ errCodeCode s.errCode) ++ phaseCode s.phase

end Sys2Proof.Machine
end

