-- ==== Sys2Proof/Machine/Operands.lean ====
section
/-! DEFINITION. Reading the input buffer, the fields of the header word, the plane bytes and the palette ROM (spec/20_memory.md R24 to R28, R34; spec/30_encoding.md R35, R36). -/

namespace Sys2Proof.Machine

/-- The value of offset `a` of `IN`, without the bounds check. -/
def State.byteAt (s : State) (a : Nat) : Byte := Memory.lookup s.inBuf a

/-- `IN[a]` exists for `a < L`; a read elsewhere is a fault (R18, R34). Reads have no side effect (R26). -/
def State.readByte (s : State) (a : Nat) : Except Fault Byte :=
  if a < s.len.toNat then .ok (s.byteAt a) else .error (.outOfBounds a)

/-- The header word `H = IN[0] || ... || IN[7]` (R35). -/
def State.headerWord (s : State) : Except Fault (BitVec 64) := do
  let b0 ← s.readByte 0
  let b1 ← s.readByte 1
  let b2 ← s.readByte 2
  let b3 ← s.readByte 3
  let b4 ← s.readByte 4
  let b5 ← s.readByte 5
  let b6 ← s.readByte 6
  let b7 ← s.readByte 7
  return b0 ++ b1 ++ b2 ++ b3 ++ b4 ++ b5 ++ b6 ++ b7

/-- `zext_16(lo) | zext_16(hi) << 8`, a little-endian 16-bit field (R27, R36). -/
def le16 (lo hi : Byte) : BitVec 16 := lo.setWidth 16 ||| (hi.setWidth 16 <<< 8)

/-- The magic bytes `H[63:32]` (R35). -/
def hdrMagic (h : BitVec 64) : BitVec 32 := h.extractLsb' 32 32

/-- `COLUMNS` from `H`: low byte `H[31:24]`, high byte `H[23:16]` (R35, R36). -/
def hdrColumns (h : BitVec 64) : BitVec 16 := le16 (h.extractLsb' 24 8) (h.extractLsb' 16 8)

/-- `ROWS` from `H`: low byte `H[15:8]`, high byte `H[7:0]` (R35, R36). -/
def hdrRows (h : BitVec 64) : BitVec 16 := le16 (h.extractLsb' 8 8) (h.extractLsb' 0 8)

/-- `N = zext_32(COLUMNS) * zext_32(ROWS)`, which never wraps (R14, R36). -/
def planeSize (c r : BitVec 16) : BitVec 32 := c.setWidth 32 * r.setWidth 32

/-- The four plane bytes that share one byte-index. -/
structure PlaneBytes where
  b : Byte
  g : Byte
  r : Byte
  i8 : Byte
deriving DecidableEq, Repr

/-- `PlaneByte(0..3, i)`, blue first (R24, R64). The first read out of bounds names the fault
(DESIGN CHOICE, safe, notes/assumptions/16.md). -/
def State.planeBytes (s : State) (i : BitVec 32) : Except Fault PlaneBytes := do
  let b ← s.readByte (planeOffset s.n 0 i)
  let g ← s.readByte (planeOffset s.n 1 i)
  let r ← s.readByte (planeOffset s.n 2 i)
  let i8 ← s.readByte (planeOffset s.n 3 i)
  return { b := b, g := g, r := r, i8 := i8 }

/-- `PALROM[x]` (R19). -/
def PalRom.read (p : PalRom) (x : PixelIndex) : Triplet :=
  p.entries[x.toNat]'(by have h := x.isLt; omega)

end Sys2Proof.Machine
end

