-- ==== Sys2Proof/Machine/Ops.lean ====
section
/-! DEFINITION. The named updates of State that the operations share, taking a FormatError among them (spec/44_sequencer.md R62, R65; spec/60_exceptions.md R76; spec/70_reset_and_hazards.md R85). -/

namespace Sys2Proof.Machine

/-- START's writes before it knows whether the header is good: the header fields, `OUT` empty, the
cursor at the first pixel (R62). -/
def State.loadHeader (s : State) (h : HdrResult) : State :=
  { s with columns := h.c, rows := h.r, n := h.n, out := [], bi := 0, sh := 7 }

/-- START's writes on success (R62). -/
def State.enterBusy (s : State) : State :=
  { s with phase := .busy, errCode := .none, errOffset := 0 }

/-- `raise FormatError(code, offset)`, the one exception of the block (R76). It saves no return
point, and nothing returns from it: the next START or RESET leaves the phase ERROR (R78). -/
def State.raiseFormatError (s : State) (code : ErrCode) (offset : BitVec 64) : State :=
  { s with phase := .error, errCode := code, errOffset := offset }

/-- `OutAppend(t)` (00_scope.md section 4, R17). -/
def State.outAppend (s : State) (t : Triplet) : State := { s with out := s.out ++ [t] }

/-- `Advance(i, s)` after the pixel at `(BI, SH)` (R65, R66). -/
def State.advance (s : State) : State :=
  { s with
    sh := if 0 < s.sh.toNat then s.sh - 1 else 7
    bi := if 0 < s.sh.toNat then s.bi else s.bi + 1
    phase := if s.sh.toNat = 0 ∧ s.bi + 1 = s.n then .done else s.phase }

/-- RESET's writes (R85), and the model's own result port emptied with them (notes/assumptions/5.md).
`IN`, `L`, `PALROM` and DIM_POLICY stay (R84). -/
def State.resetBlock (s : State) : State :=
  { s with
    phase := .idle, errCode := .none, errOffset := 0, columns := 0, rows := 0, n := 0
    bi := 0, sh := 7, out := [], result := .none }

/-- A datapath function's value put on the result port (notes/assumptions/5.md). -/
def State.setResult (s : State) (v : DatapathResult) : State := { s with result := v }

/-- The host places `IN` and `L` (R18, R43). -/
def State.setInput (s : State) (m : List Host.Cell) (l : BitVec 64) : State :=
  { s with inBuf := m, len := l }

/-- The host's remaining acts become `acts`. -/
def State.setHost (s : State) (acts : List HostAct) : State := { s with host := acts }

/-- The bytes of an output sequence as the consumer writes them: R, G, B of each triplet in order,
nothing between, before or after (R29). -/
def outBytes : List Triplet → List Byte
  | [] => []
  | t :: ts => t.r :: t.g :: t.b :: outBytes ts

end Sys2Proof.Machine
end

