-- ==== Sys2Proof/Machine/Header.lean ====
section
/-! DEFINITION. The header front end: HDRCHECK (spec/41_header.md R44 to R49). -/

namespace Sys2Proof.Machine

/-- HDRCHECK on the header word `h` and the length `l`, the checks in their order of priority
(R48, R77). With `l < 8` the header word is not looked at (R44). DEDUCED, safe (notes/assumptions/9.md). -/
def hdrCheck (p : DimPolicy) (h : BitVec 64) (l : BitVec 64) : HdrResult :=
  if l.toNat < headerLength then
    { ok := false, code := .truncatedInput, offset := l, c := 0, r := 0, n := 0 }
  else
    let c := hdrColumns h
    let r := hdrRows h
    let n := planeSize c r
    if hdrMagic h ≠ magicWord then
      { ok := false, code := .badMagic, offset := 0, c := c, r := r, n := n }
    else if dimOk p c r = false then
      { ok := false, code := .unsupportedDimensions, offset := 0, c := c, r := r, n := n }
    else if l.toNat < requiredLength n then
      { ok := false, code := .truncatedInput, offset := l, c := c, r := r, n := n }
    else
      { ok := true, code := .none, offset := 0, c := c, r := r, n := n }

/-- HDRCHECK on the buffer: the header word is read only when all of it is there (R34, R44). -/
def State.headerCheck (s : State) : Except Fault HdrResult :=
  if s.len.toNat < headerLength then .ok (hdrCheck s.cfg.dimPolicy 0 s.len)
  else
    match s.headerWord with
    | .ok h => .ok (hdrCheck s.cfg.dimPolicy h s.len)
    | .error f => .error f

/-- HDRCHECK as an operation: it writes no state of the block; its record goes to the result port (R48). -/
def execHdrcheck (h : BitVec 64) (s : State) : Host.Outcome State Fault Refusal :=
  .next (s.setResult (.header (hdrCheck s.cfg.dimPolicy h s.len)))

end Sys2Proof.Machine
end

