-- ==== Sys2Proof/Machine/Palette.lean ====
section
/-! DEFINITION. The EGA palette ROM mapper: PALMAP (spec/43_palette.md R57 to R61). -/

namespace Sys2Proof.Machine

/-- PALMAP as an operation: the ROM's entry goes to the result port (R19, R57). The entry is the adder
rule's value (Laws/Palette.lean, `palRom_read`; 90_conflicts.md C4). -/
def execPalmap (x : PixelIndex) (s : State) : Host.Outcome State Fault Refusal :=
  .next (s.setResult (.triplet (s.palRom.read x)))

end Sys2Proof.Machine
end

