-- ==== Sys2Proof/Machine/Unpack.lean ====
section
/-! DEFINITION. The planar-to-raster bit deinterleaver: UNPACK1 and UNPACK8 (spec/42_deinterleave.md R50 to R52). -/

namespace Sys2Proof.Machine

/-- `Bit(x, s)`, the bit of `x` at position `s` (R50). -/
def bitAt (x : Byte) (s : BitVec 3) : Bool := x.getLsbD s.toNat

/-- UNPACK1: one bit of each plane, intensity in bit 3 down to blue in bit 0 (R38, R51). -/
def unpack1 (b g r i8 : Byte) (s : BitVec 3) : PixelIndex :=
  BitVec.ofBool (bitAt i8 s) ++ BitVec.ofBool (bitAt r s) ++ BitVec.ofBool (bitAt g s)
    ++ BitVec.ofBool (bitAt b s)

/-- UNPACK8: lane `k` is UNPACK1 at shift `7 - k`, the leftmost pixel in lane 0 (R52). -/
def unpack8 (b g r i8 : Byte) : Vector PixelIndex 8 :=
  #v[unpack1 b g r i8 7, unpack1 b g r i8 6, unpack1 b g r i8 5, unpack1 b g r i8 4,
     unpack1 b g r i8 3, unpack1 b g r i8 2, unpack1 b g r i8 1, unpack1 b g r i8 0]

/-- UNPACK1 as an operation: pure, its PixelIndex goes to the result port (R51). -/
def execUnpack1 (i8 r g b : Byte) (sh : BitVec 3) (s : State) : Host.Outcome State Fault Refusal :=
  .next (s.setResult (.index (unpack1 b g r i8 sh)))

/-- UNPACK8 as an operation: pure, its lanes go to the result port (R52). -/
def execUnpack8 (i8 r g b : Byte) (s : State) : Host.Outcome State Fault Refusal :=
  .next (s.setResult (.lanes (unpack8 b g r i8)))

end Sys2Proof.Machine
end

