-- ==== Sys2Proof/Machine/Sequencer.lean ====
section
/-! DEFINITION. The sequencer and the host commands: START, PIXSTEP and RESET (spec/44_sequencer.md R62 to R67, spec/70_reset_and_hazards.md R85). -/

namespace Sys2Proof.Machine

/-- What START does with HDRCHECK's record (R62). -/
def State.beginTransaction (s : State) (h : HdrResult) : State :=
  if h.ok then (s.loadHeader h).enterBusy
  else (s.loadHeader h).raiseFormatError h.code h.offset

/-- START: one atomic step that checks the whole input and arms the block or raises the error (R62);
in BUSY it has no meaning and is refused (R63). -/
def execStart (s : State) : Host.Outcome State Fault Refusal :=
  if s.phase = .busy then .refused .startWhileBusy
  else
    match s.headerCheck with
    | .ok h => .next (s.beginTransaction h)
    | .error f => .fault f

/-- The triplet of the pixel at the cursor, given its four plane bytes (R64). -/
def State.pixelOf (s : State) (p : PlaneBytes) : Triplet :=
  s.palRom.read (unpack1 p.b p.g p.r p.i8 s.sh)

/-- PIXSTEP: emit the pixel at `(BI, SH)` and advance (R64 to R66). Outside BUSY it is not enabled and
the state stays as it is (R67; DEDUCED, safe, notes/assumptions/8.md). -/
def execPixstep (s : State) : Host.Outcome State Fault Refusal :=
  if s.phase = .busy then
    match s.planeBytes s.bi with
    | .ok p => .next ((s.outAppend (s.pixelOf p)).advance)
    | .error f => .fault f
  else .next s

/-- RESET: enabled in every phase (R85). -/
def execReset (s : State) : Host.Outcome State Fault Refusal := .next s.resetBlock

end Sys2Proof.Machine
end

