-- ==== Sys2Proof/Syntax.lean ====
section
/-! DEFINITION. The seven operations of spec/opcode_table.json, one constructor per row (spec/30_encoding.md R40). -/

namespace Sys2Proof

/-- The block's operations and no others (R40). An operand has exactly the width the encoding gives it. -/
inductive Instr where
  /-- START, host command `CMD = 01`; its operands `IN` and `L` stand in State (R62). -/
  | start
  /-- RESET, host command `CMD = 10` (R85). -/
  | reset
  /-- PIXSTEP, the block's own step while `PHASE = 01` (R64). -/
  | pixstep
  /-- HDRCHECK on the header word `H`, `IN[0]` most significant (R35, R48). -/
  | hdrcheck (h : BitVec 64)
  /-- UNPACK1 on the intensity, red, green and blue plane bytes and the shift, in the order of `W1` (R40, R51). -/
  | unpack1 (i8 r g b : Byte) (sh : BitVec 3)
  /-- UNPACK8 on the four plane bytes, in the order of `W8` (R40, R52). -/
  | unpack8 (i8 r g b : Byte)
  /-- PALMAP on one PixelIndex (R57). -/
  | palmap (x : PixelIndex)
deriving DecidableEq, Repr

end Sys2Proof
end

