-- ==== Sys2Proof/Machine/Dispatch.lean ====
section
/-! DEFINITION. One arm per operation of spec/opcode_table.json. -/

namespace Sys2Proof.Machine

/-- What each operation does. -/
def exec (i : Instr) (s : State) : Host.Outcome State Fault Refusal :=
  match i with
  | .start => Sys2Proof.Machine.execStart s
  | .reset => Sys2Proof.Machine.execReset s
  | .pixstep => Sys2Proof.Machine.execPixstep s
  | .hdrcheck h => Sys2Proof.Machine.execHdrcheck h s
  | .unpack1 i8 r g b sh => Sys2Proof.Machine.execUnpack1 i8 r g b sh s
  | .unpack8 i8 r g b => Sys2Proof.Machine.execUnpack8 i8 r g b s
  | .palmap x => Sys2Proof.Machine.execPalmap x s

end Sys2Proof.Machine
end

