-- ==== Sys2Proof/WellFormed.lean ====
section
/-! DEFINITION. Which instructions and which host acts are well formed (spec/30_encoding.md R41, spec/10_state.md R18). -/

namespace Sys2Proof

/-- Every operand value is legal: every header word, plane byte, shift and PixelIndex (R41, R51), and
the types give each operand its exact width, so no instruction is ill formed. -/
def Instr.wf : Instr → Bool
  | .start => true
  | .reset => true
  | .pixstep => true
  | .hdrcheck _ => true
  | .unpack1 _ _ _ _ _ => true
  | .unpack8 _ _ _ _ => true
  | .palmap _ => true

/-- `CMD = 11` is reserved (R41), and `L` is a 64-bit count of the bytes loaded (R18). -/
def HostAct.wf : HostAct → Bool
  | .command c => c != 0b11#2
  | .load bytes => decide (bytes.length < 2 ^ 64)
  | .writeByte _ _ => true
  | .hold => true
  | .hdr64 _ => true
  | .w1 _ => true
  | .w8 _ => true
  | .idx4 _ => true

end Sys2Proof
end

