-- ==== Sys2Proof/Decode.lean ====
section
/-! DEFINITION. The decoder of the operation map and, after it, the encoder (spec/30_encoding.md R35, R40, R41; spec/opcode_table.json). -/

namespace Sys2Proof

/-- Why a word stands for no operation. Closed; the step turns each into its own outcome. -/
inductive DecodeError where
  /-- `CMD = 00`, no command (R41). -/
  | noCommand
  /-- `CMD = 11`, reserved (R41). -/
  | reservedCommand
  /-- `PHASE` is not BUSY, so PIXSTEP is not enabled (R64, R67). -/
  | noEnabledStep
deriving DecidableEq, Repr

/-- The host command code (R40, R41). -/
def decodeHostCmd (c : BitVec 2) : Except DecodeError Instr :=
  if c = 0b01#2 then .ok .start
  else if c = 0b10#2 then .ok .reset
  else if c = 0b11#2 then .error .reservedCommand
  else .error .noCommand

/-- PIXSTEP is selected by `PHASE = 01` (R40, R64). -/
def decodePhase (p : BitVec 2) : Except DecodeError Instr :=
  if p = 0b01#2 then .ok .pixstep else .error .noEnabledStep

/-- `W1[34:27]` intensity, `[26:19]` red, `[18:11]` green, `[10:3]` blue, `[2:0]` shift (R40). -/
def decodeW1 (w : BitVec 35) : Instr :=
  .unpack1 (w.extractLsb' 27 8) (w.extractLsb' 19 8) (w.extractLsb' 11 8) (w.extractLsb' 3 8)
    (w.extractLsb' 0 3)

/-- `W8[31:24]` intensity, `[23:16]` red, `[15:8]` green, `[7:0]` blue (R40). -/
def decodeW8 (w : BitVec 32) : Instr :=
  .unpack8 (w.extractLsb' 24 8) (w.extractLsb' 16 8) (w.extractLsb' 8 8) (w.extractLsb' 0 8)

/-- The operation a word of any format stands for, total over every word (R40, R41). -/
def decode : PortWord → Except DecodeError Instr
  | .hostCmd c => decodeHostCmd c
  | .phase2 p => decodePhase p
  | .hdr64 h => .ok (.hdrcheck h)
  | .w1 w => .ok (decodeW1 w)
  | .w8 w => .ok (decodeW8 w)
  | .idx4 x => .ok (.palmap x)

/-- The word of each operation (R40), written from the operand layouts, most significant bit first. -/
def encode : Instr → PortWord
  | .start => .hostCmd 0b01#2
  | .reset => .hostCmd 0b10#2
  | .pixstep => .phase2 0b01#2
  | .hdrcheck h => .hdr64 h
  | .unpack1 i8 r g b sh => .w1 (i8 ++ r ++ g ++ b ++ sh)
  | .unpack8 i8 r g b => .w8 (i8 ++ r ++ g ++ b)
  | .palmap x => .idx4 x

/-- The format the opcode table gives each operation. -/
def Instr.format : Instr → Format
  | .start => .hostcmd
  | .reset => .hostcmd
  | .pixstep => .phase2
  | .hdrcheck _ => .hdr64
  | .unpack1 _ _ _ _ _ => .w1
  | .unpack8 _ _ _ _ => .w8
  | .palmap _ => .idx4

/-- The format and word that `nbits` bits of value `w` stand for at the host's side of the block.
A byte of 1 or 2 is the START or RESET code and a byte of 3 the reserved one; any other byte below 16
can only be a PixelIndex. PHASE2 is never presented from outside, so PIXSTEP's row, which shares
START's bits, has no word here. DESIGN CHOICE, safe (notes/assumptions/6.md). -/
def PortWord.ofTable (nbits w : Nat) : Option PortWord :=
  if nbits = 2 then
    if w < 4 then some (.hostCmd (BitVec.ofNat 2 w)) else none
  else if nbits = 4 then
    if w < 16 then some (.idx4 (BitVec.ofNat 4 w)) else none
  else if nbits = 8 then
    if 1 ≤ w ∧ w ≤ 3 then some (.hostCmd (BitVec.ofNat 2 w))
    else if w < 16 then some (.idx4 (BitVec.ofNat 4 w)) else none
  else if nbits = 32 then
    if w < 2 ^ 32 then some (.w8 (BitVec.ofNat 32 w)) else none
  else if nbits = 35 ∨ nbits = 40 then
    if w < 2 ^ 35 then some (.w1 (BitVec.ofNat 35 w)) else none
  else if nbits = 64 then
    if w < 2 ^ 64 then some (.hdr64 (BitVec.ofNat 64 w)) else none
  else none

/-- The instruction the decoder reads from a table row's bits, none where it refuses. -/
def decodeTableWord (nbits w : Nat) : Option Instr :=
  match PortWord.ofTable nbits w with
  | some p =>
    match decode p with
    | .ok i => some i
    | .error _ => none
  | none => none

end Sys2Proof
end

