-- ==== Sys2Proof/Machine/Fetch.lean ====
section
/-! DEFINITION. Which word the block sees in a step, and the host's own acts on the input (spec/30_encoding.md R40, R41, R43; spec/70_reset_and_hazards.md R88). -/

namespace Sys2Proof.Machine

/-- What a step starts with: a word for the block with the state it meets, or an act of the host
alone with its outcome. -/
inductive Fetched where
  | word (w : PortWord) (s : State)
  | hostOnly (o : Host.Outcome State Fault Refusal)

/-- LOAD: `IN` becomes the bytes, first byte at offset 0, and `L` their count (R43). Not while BUSY (R88). -/
def hostLoad (bytes : List Byte) (s : State) : Host.Outcome State Fault Refusal :=
  if s.phase = .busy then .refused .inputWriteWhileBusy
  else if 2 ^ 64 ≤ bytes.length then .refused .inputTooLong
  else .next (s.setInput (Memory.ofBytes bytes) (BitVec.ofNat 64 bytes.length))

/-- The host changes one byte of `IN`, outside BUSY (R88); the byte must exist (R18). -/
def hostWriteByte (a : BitVec 64) (b : Byte) (s : State) : Host.Outcome State Fault Refusal :=
  if s.phase = .busy then .refused .inputWriteWhileBusy
  else if a.toNat < s.len.toNat then .next (s.setInput (Memory.store s.inBuf a.toNat b) s.len)
  else .fault (.outOfBounds a.toNat)

/-- The word the block's own step is selected by: its `PHASE` (R40, format PHASE2). -/
def ownWord (s : State) : PortWord := .phase2 (phaseCode s.phase)

/-- One host act, met in the state whose list of acts it was taken from. `CMD = 00` leaves the step
to the block (R41). -/
def fetchAct (a : HostAct) (s : State) : Fetched :=
  match a with
  | .command c => if c = 0b00#2 then .word (ownWord s) s else .word (.hostCmd c) s
  | .load bytes => .hostOnly (hostLoad bytes s)
  | .writeByte a b => .hostOnly (hostWriteByte a b s)
  | .hold => .hostOnly (.next s)
  | .hdr64 h => .word (.hdr64 h) s
  | .w1 w => .word (.w1 w) s
  | .w8 w => .word (.w8 w) s
  | .idx4 x => .word (.idx4 x) s

/-- The next host act, or the block's own step when the host presents nothing
(DESIGN CHOICE, unsafe, notes/assumptions/2.md). -/
def fetch (s : State) : Fetched :=
  match s.host with
  | [] => .word (ownWord s) s
  | a :: rest => fetchAct a (s.setHost rest)

/-- What a word that stands for no operation does: no command and no enabled step change nothing
(R41, R67); the reserved command is refused (R41). -/
def rejected (e : DecodeError) (s : State) : Host.Outcome State Fault Refusal :=
  match e with
  | .noCommand => .next s
  | .reservedCommand => .refused .reservedCommand
  | .noEnabledStep => .next s

/-- The host act that presents a word; none for PHASE2, which only the block's own `PHASE` presents. -/
def hostActOf : PortWord → Option HostAct
  | .hostCmd c => some (.command c)
  | .phase2 _ => none
  | .hdr64 h => some (.hdr64 h)
  | .w1 w => some (.w1 w)
  | .w8 w => some (.w8 w)
  | .idx4 x => some (.idx4 x)

/-- The host acts that present the word a table row's bits stand for, before the acts already there
(notes/assumptions/7.md). -/
def placeTableWord (nbits w : Nat) (acts : List HostAct) : List HostAct :=
  match PortWord.ofTable nbits w with
  | some p =>
    match hostActOf p with
    | some a => a :: acts
    | none => acts
  | none => acts

end Sys2Proof.Machine
end

