-- ==== Sys2Proof/Machine/Step.lean ====
section
/-! DEFINITION. One step of the block and its host: fetch, decode, execute (spec/44_sequencer.md transition table; spec/30_encoding.md R40, R41). -/

namespace Sys2Proof.Machine

/-- The outcome of one word met in state `s`. -/
def runWord (w : PortWord) (s : State) : Host.Outcome State Fault Refusal :=
  match decode w with
  | .ok i => exec i s
  | .error e => rejected e s

/-- The outcome of what a step starts with. -/
def runFetched (f : Fetched) : Host.Outcome State Fault Refusal :=
  match f with
  | .word w s => runWord w s
  | .hostOnly o => o

/-- One step. The model is untimed: each START, PIXSTEP, RESET and host act is one step (R91). -/
def step (s : State) : Host.Outcome State Fault Refusal :=
  runFetched (fetch s)

/-- `s` with the host presenting a table row's word next (notes/assumptions/7.md). -/
def State.withFetchWord (s : State) (nbits w : Nat) : State :=
  s.setHost (placeTableWord nbits w s.host)

end Sys2Proof.Machine
end

