-- ==== Sys2Proof/Machine/Reference.lean ====
section
/-! DEFINITION. The spec's reference functions: little-endian reads, flat index and raster position, PIXEL and DECODE (spec/20_memory.md R27, spec/42_deinterleave.md R53, R55, spec/44_sequencer.md R68). -/

namespace Sys2Proof.Machine

/-- `MemRead(a, n)`, the sum of `IN[a+k] << 8k` for `k < n` (R27). -/
def State.memRead (s : State) : Nat → Nat → Except Fault Nat
  | _, 0 => .ok 0
  | a, n + 1 => do
    let b ← s.readByte a
    let rest ← s.memRead (a + 1) n
    return b.toNat + 256 * rest

/-- The byte-index of flat pixel `p` (R53). -/
def byteIndexOf (p : Nat) : Nat := p / 8

/-- The shift of flat pixel `p` (R53). -/
def shiftOf (p : Nat) : Nat := 7 - p % 8

/-- The flat index of the pixel at byte-index `i` and shift `s` (R53). -/
def flatIndex (i s : Nat) : Nat := 8 * i + (7 - s)

/-- The flat index of the next pixel to emit (R65). -/
def State.cursor (s : State) : Nat := flatIndex s.bi.toNat s.sh.toNat

/-- The row of the pixel at byte-index `i` (R55). -/
def rasterRow (columns i : Nat) : Nat := i / columns

/-- The pixel column of the pixel at byte-index `i`, shift `s` (R55). -/
def rasterColumn (columns i s : Nat) : Nat := 8 * (i % columns) + (7 - s)

/-- `PIXEL(IN, n, p)` by the adder rule (R68). -/
def pixel (m : List Host.Cell) (n p : Nat) : Triplet :=
  let i := byteIndexOf p
  palMap (unpack1 (Memory.lookup m (8 + i)) (Memory.lookup m (8 + n + i))
    (Memory.lookup m (8 + 2 * n + i)) (Memory.lookup m (8 + 3 * n + i)) (BitVec.ofNat 3 (shiftOf p)))

/-- The first `k` pixels of the image, in output order (R54, R68). -/
def pixels (m : List Host.Cell) (n k : Nat) : List Triplet := (List.range k).map (pixel m n)

/-- The header word of a buffer, without bounds checks (R35). -/
def headerWordOf (m : List Host.Cell) : BitVec 64 :=
  Memory.lookup m 0 ++ Memory.lookup m 1 ++ Memory.lookup m 2 ++ Memory.lookup m 3
    ++ Memory.lookup m 4 ++ Memory.lookup m 5 ++ Memory.lookup m 6 ++ Memory.lookup m 7

/-- `h = HDRCHECK(IN, L)` of a buffer (R48, R68). -/
def headerOf (p : DimPolicy) (m : List Host.Cell) (l : BitVec 64) : HdrResult :=
  hdrCheck p (headerWordOf m) l

/-- DECODE, the reference function of one transaction: the whole image or one error (R1, R68). -/
def decodeRef (p : DimPolicy) (m : List Host.Cell) (l : BitVec 64) :
    Except (ErrCode × BitVec 64) (List Triplet) :=
  if (headerOf p m l).ok then .ok (pixels m (headerOf p m l).n.toNat (8 * (headerOf p m l).n.toNat))
  else .error ((headerOf p m l).code, (headerOf p m l).offset)

end Sys2Proof.Machine
end

