-- ==== Sys2Proof/Machine/HostProgram.lean ====
section
/-! DEFINITION. The line notation for host programs, as runs of the step (spec/30_encoding.md R43). -/

namespace Sys2Proof.Machine

/-- The lines of R43 that are operations. CONFIG is an argument of `runProgram`; EXPECT is no operation. -/
inductive HostLine where
  | load (bytes : List Byte)
  | start
  | step
  | run
  | reset
  | decode (bytes : List Byte)
deriving DecidableEq, Repr

/-- One step in which the host does `a` first. -/
def hostDoes (a : HostAct) (s : State) : Host.Outcome State Fault Refusal :=
  step (s.setHost (a :: s.host))

/-- `k` steps of the machine, stopping at the first fault or refusal. -/
def runSteps : Nat → State → Host.Outcome State Fault Refusal
  | 0, s => .next s
  | k + 1, s =>
    match step s with
    | .next t => runSteps k t
    | .fault f => .fault f
    | .refused r => .refused r

/-- `k` PIXSTEP operations one after another, with no host act between (R68). -/
def pixsteps : Nat → State → Host.Outcome State Fault Refusal
  | 0, s => .next s
  | k + 1, s =>
    match exec .pixstep s with
    | .next t => pixsteps k t
    | .fault f => .fault f
    | .refused r => .refused r

/-- The second run after the first, if the first ends in a state. -/
def andThen (o : Host.Outcome State Fault Refusal)
    (k : State → Host.Outcome State Fault Refusal) : Host.Outcome State Fault Refusal :=
  match o with
  | .next s => k s
  | .fault f => .fault f
  | .refused r => .refused r

/-- STEP repeated while `PHASE = BUSY`, at most `fuel` times (R43 RUN). -/
def runBusy : Nat → State → Host.Outcome State Fault Refusal
  | 0, s => .next s
  | fuel + 1, s =>
    if s.phase = .busy then andThen (hostDoes (.command 0b00#2) s) (runBusy fuel) else .next s

/-- The pixels a transaction has still to emit, which bounds RUN (R71). -/
def State.pixelsLeft (s : State) : Nat := 8 * s.n.toNat - s.cursor

/-- RUN (R43). -/
def runAll (s : State) : Host.Outcome State Fault Refusal := runBusy s.pixelsLeft s

/-- One line (R43). DECODE is LOAD, START, RUN. -/
def runLine (l : HostLine) (s : State) : Host.Outcome State Fault Refusal :=
  match l with
  | .load bytes => hostDoes (.load bytes) s
  | .start => hostDoes (.command 0b01#2) s
  | .step => hostDoes (.command 0b00#2) s
  | .run => runAll s
  | .reset => hostDoes (.command 0b10#2) s
  | .decode bytes =>
    andThen (hostDoes (.load bytes) s) (fun s1 => andThen (hostDoes (.command 0b01#2) s1) runAll)

/-- Lines one after another. -/
def runLines : List HostLine → State → Host.Outcome State Fault Refusal
  | [], s => .next s
  | l :: ls, s => andThen (runLine l s) (runLines ls)

/-- A program: CONFIG fixes DIM_POLICY, then its lines run from the reset state (R43, R86). -/
def runProgram (config : DimPolicy) (lines : List HostLine) : Host.Outcome State Fault Refusal :=
  runLines lines (State.powerUp config)

end Sys2Proof.Machine
end

