-- ==== Sys2Proof/Safety.lean ====
section
/-! DEFINITION. What counts as a consistent state and a safe step, in the terms the statements use (spec/10_state.md R9 to R17, spec/44_sequencer.md R65 to R67, spec/70_reset_and_hazards.md R89). -/

namespace Sys2Proof.Machine

/-- No transaction is running: START is enabled (R62, R67). -/
def State.Quiescent (s : State) : Prop := s.phase ≠ .busy

/-- The whole input the header asks for is present (R25, R49). -/
def State.InputPresent (s : State) : Prop := requiredLength s.n ≤ s.len.toNat

/-- The magic stands in bytes 0 to 3 of `IN` (R35, R45). -/
def State.MagicPresent (s : State) : Prop :=
  s.byteAt 0 = 0x50#8 ∧ s.byteAt 1 = 0x49#8 ∧ s.byteAt 2 = 0x43#8 ∧ s.byteAt 3 = 0x00#8

/-- The number in header bytes 4 and 5, low byte first (R36). -/
def State.fileColumns (s : State) : Nat := (s.byteAt 4).toNat + 256 * (s.byteAt 5).toNat

/-- The number in header bytes 6 and 7, low byte first (R36). -/
def State.fileRows (s : State) : Nat := (s.byteAt 6).toNat + 256 * (s.byteAt 7).toNat

/-- The dimensions a policy accepts, over plain numbers (R46). -/
def DimsAccepted (p : DimPolicy) (c r : Nat) : Prop :=
  match p with
  | .positive => 1 ≤ c ∧ 1 ≤ r
  | .strict40x200 => c = 40 ∧ r = 200

/-- `s` after a FormatError that START raised, with the dimensions it read (R62, R76). -/
def State.afterError (s : State) (code : ErrCode) (offset : BitVec 64) (c r : Nat) : State :=
  { s with
    phase := .error, errCode := code, errOffset := offset
    columns := BitVec.ofNat 16 c, rows := BitVec.ofNat 16 r, n := BitVec.ofNat 32 (c * r)
    out := [], bi := 0, sh := 7 }

/-- `s` after a START that was accepted, with the dimensions it read (R62). -/
def State.afterStart (s : State) (c r : Nat) : State :=
  { s with
    phase := .busy, errCode := .none, errOffset := 0
    columns := BitVec.ofNat 16 c, rows := BitVec.ofNat 16 r, n := BitVec.ofNat 32 (c * r)
    out := [], bi := 0, sh := 7 }

/-- What holds of a running transaction: the header of the input it was started with was accepted, and
`OUT` is the image up to the cursor (R15, R49, R65, R89). -/
structure State.BusyOk (s : State) : Prop where
  errCode : s.errCode = .none
  header : headerOf s.cfg.dimPolicy s.inBuf s.len =
    { ok := true, code := .none, offset := 0, c := s.columns, r := s.rows, n := s.n }
  inBounds : s.bi.toNat < s.n.toNat
  present : s.InputPresent
  outPrefix : s.out = pixels s.inBuf s.n.toNat s.cursor

/-- What holds after the last pixel (R15, R16, R17, R66). -/
structure State.DoneOk (s : State) : Prop where
  errCode : s.errCode = .none
  dims : dimOk s.cfg.dimPolicy s.columns s.rows = true
  bi : s.bi = s.n
  sh : s.sh = 7
  outLength : s.out.length = 8 * s.n.toNat

/-- What holds after a FormatError (R10, R17, R76). -/
structure State.ErrorOk (s : State) : Prop where
  errCode : s.errCode ≠ .none
  bi : s.bi = 0
  sh : s.sh = 7
  out : s.out = []

/-- What holds from reset to the first START (R9, R84). -/
structure State.IdleOk (s : State) : Prop where
  errCode : s.errCode = .none
  columns : s.columns = 0
  rows : s.rows = 0
  bi : s.bi = 0
  sh : s.sh = 7
  out : s.out = []

/-- The block's invariant: the input in canonical form, `N` the product of the dimensions (R14), an
error offset only with a truncation (R11), and what each phase promises. -/
structure State.Inv (s : State) : Prop where
  memory : Memory.wf s.inBuf s.len.toNat = true
  size : s.n.toNat = s.columns.toNat * s.rows.toNat
  offset : s.errCode ≠ .truncatedInput → s.errOffset = 0
  idle : s.phase = .idle → s.IdleOk
  busy : s.phase = .busy → s.BusyOk
  done : s.phase = .done → s.DoneOk
  error : s.phase = .error → s.ErrorOk

/-- A step that does not end in a fault. -/
def SafeStep (s : State) : Prop := ∀ f, step s ≠ .fault f

end Sys2Proof.Machine
end

