-- ==== Sys2Proof/Certificates/Slice0/Obligations.lean ====
section
/-! DEFINITION. The statements for the provers, each a def Obligations.<Name> : Prop. R<n> is a numbered rule of spec/; "log <n>" is notes/assumptions/<n>.md. -/

open Sys2Proof Sys2Proof.Machine

/-! ## Encoding -/

/-- Decode and encode agree, both ways, with every operand at every value (R40): an operation's word
decodes to it, and every word that decodes is the word of what it decodes to. -/
def Obligations.DecodeEncodeRoundTrip : Prop :=
  (∀ i : Instr, i.wf = true → decode (encode i) = .ok i) ∧
  (∀ (w : PortWord) (i : Instr), decode w = .ok i → encode i = w)

/-- Each operand bit stands where R40 puts it: `W1` and `W8` bit by bit. -/
def Obligations.OperandWordBitsStandInPlace : Prop :=
  (∀ w : BitVec 35, ∃ i8 r g b sh, decode (.w1 w) = .ok (.unpack1 i8 r g b sh) ∧
    (∀ k, k < 8 → i8.getLsbD k = w.getLsbD (27 + k) ∧ r.getLsbD k = w.getLsbD (19 + k) ∧
      g.getLsbD k = w.getLsbD (11 + k) ∧ b.getLsbD k = w.getLsbD (3 + k)) ∧
    (∀ k, k < 3 → sh.getLsbD k = w.getLsbD k)) ∧
  (∀ w : BitVec 32, ∃ i8 r g b, decode (.w8 w) = .ok (.unpack8 i8 r g b) ∧
    (∀ k, k < 8 → i8.getLsbD k = w.getLsbD (24 + k) ∧ r.getLsbD k = w.getLsbD (16 + k) ∧
      g.getLsbD k = w.getLsbD (8 + k) ∧ b.getLsbD k = w.getLsbD k))

/-- A few words of the operation map, written out from R35, R40 and R41. -/
def Obligations.WordsOfTheMapDecode : Prop :=
  decode (.hostCmd 0b01#2) = .ok .start ∧
  decode (.hostCmd 0b10#2) = .ok .reset ∧
  decode (.hostCmd 0b00#2) = .error .noCommand ∧
  decode (.hostCmd 0b11#2) = .error .reservedCommand ∧
  decode (.phase2 0b01#2) = .ok .pixstep ∧
  decode (.phase2 0b00#2) = .error .noEnabledStep ∧
  decode (.hdr64 0x504943002800C800#64) = .ok (.hdrcheck 0x504943002800C800#64) ∧
  decode (.w1 0b00001000000001000000001000000001011#35) = .ok (.unpack1 0x08 0x04 0x02 0x01 3) ∧
  decode (.w8 0x01AACCF0#32) = .ok (.unpack8 0x01 0xAA 0xCC 0xF0) ∧
  decode (.idx4 0b0100#4) = .ok (.palmap 4)

/-! ## The step -/

/-- A step runs the decoded operation: the word of the host's next act, or, when the host presents
nothing or `CMD = 00`, the block's own PHASE. Around `exec` the step only takes the act off the list.
The list of acts is the model's (log 2, log 5). -/
def Obligations.StepRunsDecodedInstruction : Prop :=
  (∀ (s : State) (a : HostAct) (rest : List HostAct) (w : PortWord) (i : Instr),
    s.host = a :: rest → hostActOf w = some a → decode w = .ok i →
    step s = exec i (s.setHost rest)) ∧
  (∀ (s : State) (i : Instr), s.host = [] → decode (.phase2 (phaseCode s.phase)) = .ok i →
    step s = exec i s) ∧
  (∀ (s : State) (rest : List HostAct) (i : Instr), s.host = .command 0b00#2 :: rest →
    decode (.phase2 (phaseCode s.phase)) = .ok i → step s = exec i (s.setHost rest))

/-- A table row's word placed for the next step is the operation that step runs (the model's
interface, log 6 and log 7). -/
def Obligations.PlacedTableWordRunsNext : Prop :=
  ∀ (s : State) (nbits w : Nat) (i : Instr), decodeTableWord nbits w = some i →
    step (s.withFetchWord nbits w) = exec i s

/-- No command and no enabled step: nothing but the list of acts changes. The reserved `CMD = 11` is
refused in every phase, by the refusal's name (R41, R67; the list of acts is the model's, log 2). -/
def Obligations.NoCommandAndReservedCommand : Prop :=
  (∀ s : State, s.phase ≠ .busy → s.host = [] → step s = .next s) ∧
  (∀ (s : State) (rest : List HostAct), s.phase ≠ .busy → s.host = .command 0b00#2 :: rest →
    step s = .next (s.setHost rest)) ∧
  (∀ (s : State) (rest : List HostAct), s.host = .command 0b11#2 :: rest →
    step s = .refused .reservedCommand)

/-- A step in which the consumer accepts nothing is a delay and no more (R70; the host act `hold` is
the model's, log 13). -/
def Obligations.HoldOnlyDelays : Prop :=
  ∀ (s : State) (rest : List HostAct), s.host = .hold :: rest → step s = .next (s.setHost rest)

/-! ## Reading the input -/

/-- MemRead is the little-endian sum of the bytes it covers, and START's header fields are
`MemRead(4, 2)` and `MemRead(6, 2)` (R27). -/
def Obligations.MemReadIsLittleEndianSum : Prop :=
  (∀ (s : State) (a n : Nat), a + n ≤ s.len.toNat →
    s.memRead a n = .ok (((List.range n).map fun k => (s.byteAt (a + k)).toNat * 2 ^ (8 * k)).sum)) ∧
  (∀ s : State, 8 ≤ s.len.toNat → ∃ h, s.headerWord = .ok h ∧
    s.memRead 4 2 = .ok (hdrColumns h).toNat ∧ s.memRead 6 2 = .ok (hdrRows h).toNat)

/-- The two dimension fields are zero-extended little-endian 16-bit numbers of header bytes 4, 5 and
6, 7, and `N` is their exact product (R36, R14). -/
def Obligations.HeaderFieldsAssembled : Prop :=
  ∀ s : State, 8 ≤ s.len.toNat → ∃ h, s.headerWord = .ok h ∧
    hdrColumns h = (s.byteAt 4).setWidth 16 ||| ((s.byteAt 5).setWidth 16 <<< 8) ∧
    hdrRows h = (s.byteAt 6).setWidth 16 ||| ((s.byteAt 7).setWidth 16 <<< 8) ∧
    (hdrColumns h).toNat = s.fileColumns ∧ (hdrRows h).toNat = s.fileRows ∧
    (planeSize (hdrColumns h) (hdrRows h)).toNat = s.fileColumns * s.fileRows

/-- A PIXSTEP whose reads run past `L` faults with the first offset past it, in the order blue,
green, red, intensity (R34 gives the fault; which offset is named is the model's choice, log 16). -/
def Obligations.PixstepReadPastEndFaults : Prop :=
  ∀ (s : State) (k : Nat), s.phase = .busy → k < 4 →
    (∀ j, j < k → 8 + j * s.n.toNat + s.bi.toNat < s.len.toNat) →
    s.len.toNat ≤ 8 + k * s.n.toNat + s.bi.toNat →
    exec .pixstep s = .fault (.outOfBounds (8 + k * s.n.toNat + s.bi.toNat))

/-! ## The header front end -/

/-- HDRCHECK as one function of the header word, the length and the policy: the five outcomes in the
order of checking, over plain numbers (R48, R77). -/
def Obligations.HdrcheckFollowsItsPriority : Prop :=
  ∀ (p : DimPolicy) (h l : BitVec 64),
    let c := h.toNat / 2 ^ 24 % 256 + 256 * (h.toNat / 2 ^ 16 % 256)
    let r := h.toNat / 2 ^ 8 % 256 + 256 * (h.toNat % 256)
    let rec' := fun (ok : Bool) (code : ErrCode) (offset : BitVec 64) =>
      HdrResult.mk ok code offset (BitVec.ofNat 16 c) (BitVec.ofNat 16 r) (BitVec.ofNat 32 (c * r))
    (l.toNat < 8 → hdrCheck p h l = HdrResult.mk false .truncatedInput l 0 0 0) ∧
    (8 ≤ l.toNat → h.toNat / 2 ^ 32 ≠ 0x50494300 → hdrCheck p h l = rec' false .badMagic 0) ∧
    (8 ≤ l.toNat → h.toNat / 2 ^ 32 = 0x50494300 → ¬ DimsAccepted p c r →
      hdrCheck p h l = rec' false .unsupportedDimensions 0) ∧
    (8 ≤ l.toNat → h.toNat / 2 ^ 32 = 0x50494300 → DimsAccepted p c r →
      l.toNat < 8 + 4 * (c * r) → hdrCheck p h l = rec' false .truncatedInput l) ∧
    (h.toNat / 2 ^ 32 = 0x50494300 → DimsAccepted p c r →
      8 + 4 * (c * r) ≤ l.toNat → hdrCheck p h l = rec' true .none 0)

/-- `ok` exactly when the code is NONE; on success the dimensions are positive, `n` is their product
and the whole record is present (R48, R49). -/
def Obligations.HdrcheckSuccessMeansWholeInput : Prop :=
  ∀ (p : DimPolicy) (h l : BitVec 64),
    ((hdrCheck p h l).ok = true ↔ (hdrCheck p h l).code = .none) ∧
    ((hdrCheck p h l).ok = true →
      1 ≤ (hdrCheck p h l).n.toNat ∧
      (hdrCheck p h l).n.toNat = (hdrCheck p h l).c.toNat * (hdrCheck p h l).r.toNat ∧
      8 + 4 * (hdrCheck p h l).n.toNat ≤ l.toNat)

/-! ## START -/

/-- START in a quiescent phase is one step: it writes HDRCHECK's dimensions, empties OUT, puts the
cursor at the first pixel and either arms the block or takes the FormatError; nothing else changes
(R62). -/
def Obligations.StartFollowsHeaderCheck : Prop :=
  ∀ s : State, s.phase ≠ .busy →
    exec .start s = .next
      (let h := headerOf s.cfg.dimPolicy s.inBuf s.len
       if h.ok = true then
         { s with columns := h.c, rows := h.r, n := h.n, out := [], bi := 0, sh := 7
                  phase := .busy, errCode := .none, errOffset := 0 }
       else
         { s with columns := h.c, rows := h.r, n := h.n, out := [], bi := 0, sh := 7
                  phase := .error, errCode := h.code, errOffset := h.offset })

/-- START accepts a complete input, whatever its dimensions within the policy, in terms of the bytes
of `IN` (R62, R45 to R47). -/
def Obligations.StartAcceptsCompleteInput : Prop :=
  ∀ s : State, s.phase ≠ .busy → s.MagicPresent →
    DimsAccepted s.cfg.dimPolicy s.fileColumns s.fileRows →
    8 + 4 * (s.fileColumns * s.fileRows) ≤ s.len.toNat →
    exec .start s = .next (s.afterStart s.fileColumns s.fileRows)

/-- The errors START records, with their cause, offset and dimensions, and which wins, in terms of the
bytes of `IN` (R73, R74, R75, R77). -/
def Obligations.StartRecordsFormatErrors : Prop :=
  ∀ s : State, s.phase ≠ .busy →
    (s.len.toNat < 8 → exec .start s = .next (s.afterError .truncatedInput s.len 0 0)) ∧
    (8 ≤ s.len.toNat → ¬ s.MagicPresent →
      exec .start s = .next (s.afterError .badMagic 0 s.fileColumns s.fileRows)) ∧
    (8 ≤ s.len.toNat → s.MagicPresent →
      ¬ DimsAccepted s.cfg.dimPolicy s.fileColumns s.fileRows →
      exec .start s = .next (s.afterError .unsupportedDimensions 0 s.fileColumns s.fileRows)) ∧
    (8 ≤ s.len.toNat → s.MagicPresent →
      DimsAccepted s.cfg.dimPolicy s.fileColumns s.fileRows →
      s.len.toNat < 8 + 4 * (s.fileColumns * s.fileRows) →
      exec .start s = .next (s.afterError .truncatedInput s.len s.fileColumns s.fileRows)) ∧
    errCodeCode .badMagic = 1 ∧ errCodeCode .unsupportedDimensions = 2 ∧
    errCodeCode .truncatedInput = 3

/-- START while BUSY has no meaning and is refused by name (R63). -/
def Obligations.StartInBusyRefused : Prop :=
  ∀ s : State, s.phase = .busy → exec .start s = .refused .startWhileBusy

/-! ## The datapath functions -/

/-- UNPACK1 takes bit `s` of each plane byte, intensity worth 8, red 4, green 2, blue 1 (R50, R51). -/
def Obligations.UnpackOneTakesBitOfEachPlane : Prop :=
  ∀ (b g r i8 : Byte) (s : BitVec 3),
    (unpack1 b g r i8 s).toNat =
      8 * (i8.toNat / 2 ^ s.toNat % 2) + 4 * (r.toNat / 2 ^ s.toNat % 2) +
        2 * (g.toNat / 2 ^ s.toNat % 2) + b.toNat / 2 ^ s.toNat % 2

/-- UNPACK8's lane `k` is UNPACK1 at shift `7 - k`, and reversing the lanes gives another result for
every byte tuple that is not bit-symmetric (R52). -/
def Obligations.UnpackEightLanesInOrder : Prop :=
  (∀ (b g r i8 : Byte) (k : Nat) (hk : k < 8),
    (unpack8 b g r i8)[k] = unpack1 b g r i8 (BitVec.ofNat 3 (7 - k))) ∧
  (∀ b g r i8 : Byte,
    (unpack8 b g r i8).toList.reverse = (unpack8 b g r i8).toList ↔
      ∀ k, k < 8 → b.getLsbD k = b.getLsbD (7 - k) ∧ g.getLsbD k = g.getLsbD (7 - k) ∧
        r.getLsbD k = r.getLsbD (7 - k) ∧ i8.getLsbD k = i8.getLsbD (7 - k))

/-- PALMAP's three channels: 0xAA for the colour bit plus 0x55 for intensity, the same from the adder
rule and from any palette ROM the state can hold (R57). -/
def Obligations.PalmapFollowsChannelRule : Prop :=
  ∀ (p : PalRom) (x : PixelIndex),
    p.read x = palMap x ∧
    (palMap x).r.toNat = 0xAA * (x.getLsbD 2).toNat + 0x55 * (x.getLsbD 3).toNat ∧
    (palMap x).g.toNat = 0xAA * (x.getLsbD 1).toNat + 0x55 * (x.getLsbD 3).toNat ∧
    (palMap x).b.toNat = 0xAA * (x.getLsbD 0).toNat + 0x55 * (x.getLsbD 3).toNat

/-- The 16 ROM entries as 24-bit values, by R58's formula, in every state. -/
def Obligations.PaletteRomEntriesAsPacked : Prop :=
  ∀ (s : State) (x : PixelIndex),
    (packTriplet (s.palRom.read x)).toNat =
      0xAA0000 * (x.getLsbD 2).toNat + 0x00AA00 * (x.getLsbD 1).toNat +
        0x0000AA * (x.getLsbD 0).toNat + 0x555555 * (x.getLsbD 3).toNat

/-- The channel sum never carries and equals the bitwise or, every channel PALMAP gives is one of four
values, and every triplet one of the sixteen entries (R59, R61). -/
def Obligations.PaletteChannelsNeverCarry : Prop :=
  (∀ colour intensity : Bool,
    (channel colour intensity).toNat = (if colour then 0xAA else 0) + (if intensity then 0x55 else 0) ∧
    channel colour intensity = (if colour then 0xAA#8 else 0) ||| (if intensity then 0x55#8 else 0)) ∧
  (∀ x : PixelIndex, palMap x ∈ palRomContents.toList ∧
    ∀ v ∈ [(palMap x).r, (palMap x).g, (palMap x).b], v = 0x00 ∨ v = 0x55 ∨ v = 0xAA ∨ v = 0xFF)

/-- HDRCHECK, UNPACK1, UNPACK8 and PALMAP complete in every state: their value stands on the result
port and nothing else changes. The functions are pure (R48, R51, R52, R57); that the value is seen
on a result port is the model's choice (log 5). -/
def Obligations.DatapathFunctionsComplete : Prop :=
  (∀ (h : BitVec 64) (s : State), exec (.hdrcheck h) s =
    .next { s with result := .header (hdrCheck s.cfg.dimPolicy h s.len) }) ∧
  (∀ (i8 r g b : Byte) (sh : BitVec 3) (s : State), exec (.unpack1 i8 r g b sh) s =
    .next { s with result := .index (unpack1 b g r i8 sh) }) ∧
  (∀ (i8 r g b : Byte) (s : State), exec (.unpack8 i8 r g b) s =
    .next { s with result := .lanes (unpack8 b g r i8) }) ∧
  (∀ (x : PixelIndex) (s : State), exec (.palmap x) s =
    .next { s with result := .triplet (palMap x) })

/-! ## PIXSTEP -/

/-- PIXSTEP in BUSY with the input present: one triplet from bit `SH` of the four bytes at byte-index
`BI` is appended, the cursor advances, and nothing else changes (R64). -/
def Obligations.PixstepEmitsPixelAtCursor : Prop :=
  ∀ s : State, s.phase = .busy → s.bi.toNat < s.n.toNat → 8 + 4 * s.n.toNat ≤ s.len.toNat →
    exec .pixstep s = .next
      { s with
        out := s.out ++ [palMap (unpack1
          (s.byteAt (8 + s.bi.toNat)) (s.byteAt (8 + s.n.toNat + s.bi.toNat))
          (s.byteAt (8 + 2 * s.n.toNat + s.bi.toNat)) (s.byteAt (8 + 3 * s.n.toNat + s.bi.toNat))
          s.sh)]
        sh := if s.sh = 0 then 7 else s.sh - 1
        bi := if s.sh = 0 then s.bi + 1 else s.bi
        phase := if s.sh = 0 ∧ s.bi.toNat + 1 = s.n.toNat then .done else .busy }

/-- In a consistent BUSY state `OUT` is as long as the cursor's flat index, and a PIXSTEP moves the
cursor to the next pixel by R65's three cases, never past `N`. -/
def Obligations.CursorAdvancesPixelByPixel : Prop :=
  ∀ s : State, s.Inv → s.phase = .busy →
    s.out.length = 8 * s.bi.toNat + (7 - s.sh.toNat) ∧
    ∃ t, exec .pixstep s = .next t ∧
      t.out.length = s.out.length + 1 ∧ t.cursor = s.cursor + 1 ∧ t.bi.toNat ≤ s.n.toNat ∧
      (0 < s.sh.toNat → t.sh.toNat = s.sh.toNat - 1 ∧ t.bi = s.bi ∧ t.phase = .busy) ∧
      (s.sh.toNat = 0 → t.sh = 7 ∧ t.bi.toNat = s.bi.toNat + 1) ∧
      (s.sh.toNat = 0 → s.bi.toNat + 1 < s.n.toNat → t.phase = .busy) ∧
      (s.sh.toNat = 0 → s.bi.toNat + 1 = s.n.toNat → t.phase = .done)

/-- The PIXSTEP at `(N - 1, 0)` completes the image (R66). -/
def Obligations.LastPixelCompletesTheImage : Prop :=
  ∀ s : State, s.Inv → s.phase = .busy → s.bi.toNat = s.n.toNat - 1 → s.sh = 0 →
    ∃ t, exec .pixstep s = .next t ∧ t.phase = .done ∧ t.bi = t.n ∧ t.n = s.n ∧ t.sh = 7 ∧
      t.out.length = 8 * t.n.toNat ∧ t.errCode = .none ∧ t.errOffset = 0

/-- PIXSTEP outside BUSY leaves the state as it is. The spec has no such step (R64, R67); that the
operation then changes nothing is the model's reading (log 8). -/
def Obligations.PixstepOutsideBusyChangesNothing : Prop :=
  ∀ s : State, s.phase ≠ .busy → exec .pixstep s = .next s

/-- Eight PIXSTEPs from the left edge of a byte-index emit UNPACK8's lanes in lane order and move to
the next byte-index, so a block that unpacks by UNPACK8 gives the same `OUT` (R52, R69). -/
def Obligations.EightPixstepsEmitUnpackEightLanes : Prop :=
  ∀ s : State, s.phase = .busy → s.bi.toNat < s.n.toNat → 8 + 4 * s.n.toNat ≤ s.len.toNat →
    s.sh = 7 →
    ∃ t, pixsteps 8 s = .next t ∧ t.bi.toNat = s.bi.toNat + 1 ∧ t.sh = 7 ∧
      t.phase = (if s.bi.toNat + 1 = s.n.toNat then .done else .busy) ∧
      t.out = s.out ++ (unpack8
        (s.byteAt (8 + s.bi.toNat)) (s.byteAt (8 + s.n.toNat + s.bi.toNat))
        (s.byteAt (8 + 2 * s.n.toNat + s.bi.toNat))
        (s.byteAt (8 + 3 * s.n.toNat + s.bi.toNat))).toList.map palMap

/-! ## RESET and reset -/

/-- RESET completes in every phase and writes exactly R85's registers; the input, `L`, the palette and
the parameter stay (R84, R85). That the list of the host's acts stays too is the model's choice and no
rule of the spec (log 2, DESIGN CHOICE: RESET leaves the list as it is). The model's own result port
(log 5) is left unsaid. -/
def Obligations.ResetRestoresTheResetState : Prop :=
  ∀ s : State, ∃ t, exec .reset s = .next t ∧
    t = { s with phase := .idle, errCode := .none, errOffset := 0, columns := 0, rows := 0, n := 0
                 bi := 0, sh := 7, out := [], result := t.result }

/-- What every element holds after power-up, under either policy, STATUS among them (R84). The values
of `IN` and `L`, which the spec does not give, are left unsaid. -/
def Obligations.PowerUpValues : Prop :=
  ∀ p : DimPolicy, (State.powerUp p).phase = .idle ∧ (State.powerUp p).errCode = .none ∧
    (State.powerUp p).errOffset = 0 ∧ (State.powerUp p).columns = 0 ∧ (State.powerUp p).rows = 0 ∧
    (State.powerUp p).n = 0 ∧ (State.powerUp p).bi = 0 ∧ (State.powerUp p).sh = 7 ∧
    (State.powerUp p).out = [] ∧ (State.powerUp p).palRom.entries = palRomContents ∧
    (State.powerUp p).status = 0x00000000#32 ∧ (State.powerUp p).cfg.dimPolicy = p ∧
    State.reset = State.powerUp .positive

/-! ## Status -/

/-- STATUS is PHASE in bits 1:0, ERR_CODE in bits 3:2 and 0 above, in every state, and 0 at reset
(R21). -/
def Obligations.StatusPacksPhaseAndErrorCode : Prop :=
  (∀ s : State, s.status.extractLsb' 0 2 = phaseCode s.phase ∧
    s.status.extractLsb' 2 2 = errCodeCode s.errCode ∧ s.status.extractLsb' 4 28 = 0 ∧
    s.status.toNat = (phaseCode s.phase).toNat + 4 * (errCodeCode s.errCode).toNat) ∧
  State.reset.status = 0x00000000#32

/-- In a consistent state ERR_CODE is nonzero exactly in phase ERROR, and ERR_OFFSET is 0 under every
code but TRUNCATED_INPUT (R10, R11). -/
def Obligations.ErrorCodeExactlyInError : Prop :=
  ∀ s : State, s.Inv →
    ((errCodeCode s.errCode ≠ 0 ↔ s.phase = .error) ∧
      (s.errCode ≠ .truncatedInput → s.errOffset = 0))

/-! ## Frames -/

/-- No operation of the block writes the input or its length (R26), the palette (R60) or the parameter
(R4; held in State by log 1). That none changes the list of the host's acts is the model's choice and no
rule of the spec: the list is the model's own field, and only the step takes an act from it (log 2,
DESIGN CHOICE). -/
def Obligations.OperationsNeverWriteInput : Prop :=
  ∀ (i : Instr) (s t : State), exec i s = .next t →
    (∀ a, t.byteAt a = s.byteAt a) ∧ t.len = s.len ∧ t.palRom.entries = s.palRom.entries ∧
      t.cfg = s.cfg ∧ t.host = s.host

/-- No step, of the block or of the host, changes the parameter or the palette (R4, R60). -/
def Obligations.ParameterAndPaletteNeverChange : Prop :=
  ∀ s t : State, step s = .next t → t.cfg = s.cfg ∧ t.palRom.entries = palRomContents

/-- Across one step `OUT` stays, or gains one triplet at its end in BUSY, or is emptied by START or
RESET: an emitted triplet never changes (R17, R31; the host's acts are the model's, log 2). -/
def Obligations.OutGrowsOneTripletAtATime : Prop :=
  ∀ s t : State, step s = .next t →
    t.out = s.out ∨
    (s.phase = .busy ∧ ∃ x, t.out = s.out ++ [x]) ∨
    (t.out = [] ∧ ∃ c rest, s.host = .command c :: rest ∧ (c = 0b01#2 ∨ c = 0b10#2))

/-! ## Whole-machine rules -/

/-- The block's invariant (Safety.lean, State.Inv) holds at reset under either policy. The input
being empty at reset is the model's choice (log 3). -/
def Obligations.PowerUpIsConsistent : Prop :=
  ∀ p : DimPolicy, (State.powerUp p).Inv

/-- Every step from every consistent state, of the block or of the host, gives a consistent state. -/
def Obligations.StepKeepsConsistency : Prop :=
  ∀ s t : State, s.Inv → step s = .next t → t.Inv

/-- A step from a consistent state ends in no fault, unless the host writes a byte that does not
exist: every read of START and PIXSTEP is in bounds (R34). -/
def Obligations.ConsistentStepNeverFaults : Prop :=
  ∀ s : State, s.Inv →
    (∀ (a : BitVec 64) (b : Byte) (rest : List HostAct),
      s.host = .writeByte a b :: rest → a.toNat < s.len.toNat) →
    SafeStep s

/-- Once BUSY, no error of any kind can be raised: PIXSTEP always answers a next state that is BUSY
or DONE with no error, and no step leads from BUSY to ERROR (R79). -/
def Obligations.NoErrorAfterStart : Prop :=
  ∀ s : State, s.Inv → s.phase = .busy →
    (∃ t, exec .pixstep s = .next t ∧ (t.phase = .busy ∨ t.phase = .done) ∧ t.errCode = .none ∧
      t.errOffset = 0) ∧
    (∀ t, step s = .next t → t.phase ≠ .error)

/-- Only these events change PHASE: a START from a quiescent phase enters BUSY or ERROR, the last
PIXSTEP enters DONE, a RESET enters IDLE (44_sequencer.md, transition table). -/
def Obligations.OnlyTheseEventsChangePhase : Prop :=
  ∀ s t : State, step s = .next t → t.phase ≠ s.phase →
    ((t.phase = .busy ∨ t.phase = .error) ∧ s.phase ≠ .busy ∧
      ∃ rest, s.host = .command 0b01#2 :: rest) ∨
    (t.phase = .done ∧ s.phase = .busy ∧ s.sh = 0 ∧ s.bi + 1 = s.n ∧
      (s.host = [] ∨ ∃ rest, s.host = .command 0b00#2 :: rest)) ∨
    (t.phase = .idle ∧ ∃ rest, s.host = .command 0b10#2 :: rest)

/-- IDLE, DONE and ERROR, with everything the block keeps, hold until START or RESET (R67, R78; the
host's acts are the model's, log 2). -/
def Obligations.QuiescentPhasesHold : Prop :=
  ∀ s t : State, s.phase ≠ .busy →
    (∀ rest, s.host ≠ .command 0b01#2 :: rest ∧ s.host ≠ .command 0b10#2 :: rest) →
    step s = .next t →
    t.phase = s.phase ∧ t.errCode = s.errCode ∧ t.errOffset = s.errOffset ∧
      t.columns = s.columns ∧ t.rows = s.rows ∧ t.n = s.n ∧ t.bi = s.bi ∧ t.sh = s.sh ∧
      t.out = s.out

/-- The input and its length never change while BUSY, and a host that tries is refused by name (R30,
R88; the host acts `load` and `writeByte` are the model's, log 12). -/
def Obligations.InputFixedDuringTransaction : Prop :=
  ∀ s : State, s.phase = .busy →
    (∀ t, step s = .next t → t.inBuf = s.inBuf ∧ t.len = s.len) ∧
    (∀ bytes rest, s.host = .load bytes :: rest → step s = .refused .inputWriteWhileBusy) ∧
    (∀ a b rest, s.host = .writeByte a b :: rest → step s = .refused .inputWriteWhileBusy)

/-- Outside BUSY a load places the bytes from offset 0 and `L` is their count: those offsets read
back the bytes, every other offset does not exist, and nothing else changes (R18, R43; log 4). -/
def Obligations.LoadPlacesTheInput : Prop :=
  ∀ (s : State) (bytes : List Byte) (rest : List HostAct), s.phase ≠ .busy →
    bytes.length < 2 ^ 64 → s.host = .load bytes :: rest →
    ∃ t, step s = .next t ∧ t = { s with inBuf := t.inBuf, len := t.len, host := rest } ∧
      t.len.toNat = bytes.length ∧ Memory.wf t.inBuf t.len.toNat = true ∧
      (∀ a (h : a < bytes.length), t.readByte a = .ok bytes[a]) ∧
      (∀ a, bytes.length ≤ a → t.readByte a = .error (.outOfBounds a))

/-- Outside BUSY the host may change one byte that exists: that byte reads as written, every other
byte as before, and nothing else changes; a byte that does not exist faults (R18, R88; log 12). -/
def Obligations.HostByteWriteChangesOneByte : Prop :=
  ∀ (s : State) (a : BitVec 64) (b : Byte) (rest : List HostAct), s.phase ≠ .busy →
    Memory.wf s.inBuf s.len.toNat = true → s.host = .writeByte a b :: rest →
    (a.toNat < s.len.toNat →
      ∃ t, step s = .next t ∧ t = { s with inBuf := t.inBuf, host := rest } ∧
        Memory.wf t.inBuf t.len.toNat = true ∧ t.readByte a.toNat = .ok b ∧
        ∀ x, x ≠ a.toNat → t.byteAt x = s.byteAt x) ∧
    (s.len.toNat ≤ a.toNat → step s = .fault (.outOfBounds a.toNat))

/-! ## Geometry and output -/

/-- The flat pixel index and the pair of byte-index and shift convert both ways (R53). -/
def Obligations.FlatIndexConvertsBothWays : Prop :=
  (∀ p, flatIndex (byteIndexOf p) (shiftOf p) = p ∧ shiftOf p ≤ 7) ∧
  (∀ i s, s ≤ 7 → byteIndexOf (flatIndex i s) = i ∧ shiftOf (flatIndex i s) = s)

/-- The flat index is the row-major index of the pixel's raster position, which is inside the
picture (R55). -/
def Obligations.RasterPositionIsRowMajor : Prop :=
  ∀ columns rows i s : Nat, s ≤ 7 → i < columns * rows →
    flatIndex i s = rasterRow columns i * (8 * columns) + rasterColumn columns i s ∧
    rasterColumn columns i s < 8 * columns ∧ rasterRow columns i < rows

/-- Byte `3p + c` of the output stream is channel `c` of triplet `p`, and there are no other bytes
(R29). -/
def Obligations.OutputBytesAreRgbInOrder : Prop :=
  ∀ ts : List Triplet, (outBytes ts).length = 3 * ts.length ∧
    ∀ (p : Nat) (h : p < ts.length),
      (outBytes ts)[3 * p]? = some ts[p].r ∧ (outBytes ts)[3 * p + 1]? = some ts[p].g ∧
        (outBytes ts)[3 * p + 2]? = some ts[p].b

/-- A decoded image has exactly `columns * 8 * rows` pixels, the one at each flat index being PIXEL's
(R56, R68). -/
def Obligations.DecodedImageHasEveryPixelOnce : Prop :=
  ∀ (p : DimPolicy) (m : List Host.Cell) (l : BitVec 64) (seq : List Triplet),
    decodeRef p m l = .ok seq →
    let h := headerOf p m l
    seq.length = h.c.toNat * 8 * h.r.toNat ∧ 1 ≤ seq.length ∧
      ∀ k, k < seq.length → seq[k]? = some (pixel m h.n.toNat k)

/-- A pixel depends on its four input bits and nothing else (R83). -/
def Obligations.PixelDependsOnItsFourBits : Prop :=
  ∀ (m m' : List Host.Cell) (n p : Nat),
    (∀ k, k < 4 →
      (Memory.lookup m (8 + k * n + byteIndexOf p)).getLsbD (shiftOf p) =
        (Memory.lookup m' (8 + k * n + byteIndexOf p)).getLsbD (shiftOf p)) →
    pixel m n p = pixel m' n p

/-- While BUSY, `OUT` is a proper prefix of the image the transaction ends with; in ERROR it is empty
(R89). -/
def Obligations.OutIsPrefixUntilDone : Prop :=
  ∀ s : State, s.Inv →
    (s.phase = .busy → ∃ seq, decodeRef s.cfg.dimPolicy s.inBuf s.len = .ok seq ∧
      s.out <+: seq ∧ s.out.length < seq.length ∧ seq.length = 8 * s.n.toNat) ∧
    (s.phase = .error → s.out = [])

/-! ## Whole transactions -/

/-- The whole transaction against the reference function: from any quiescent state, START and then
PIXSTEPs until PHASE leaves BUSY end exactly as DECODE says, after 0 PIXSTEPs on an error and after
exactly `8 * N` on success, and until then the block is BUSY with that many pixels out (R68). -/
def Obligations.StartThenPixstepsRefineDecode : Prop :=
  ∀ s : State, s.phase ≠ .busy →
    let h := headerOf s.cfg.dimPolicy s.inBuf s.len
    (∀ c o, decodeRef s.cfg.dimPolicy s.inBuf s.len = .error (c, o) →
      exec .start s = .next
        { s with phase := .error, errCode := c, errOffset := o, out := [], columns := h.c
                 rows := h.r, n := h.n, bi := 0, sh := 7 }) ∧
    (∀ seq, decodeRef s.cfg.dimPolicy s.inBuf s.len = .ok seq →
      ∃ s1, exec .start s = .next s1 ∧
        (∀ k, k < 8 * h.n.toNat → ∃ t, pixsteps k s1 = .next t ∧ t.phase = .busy ∧
          t.out = seq.take k) ∧
        pixsteps (8 * h.n.toNat) s1 = .next
          { s with phase := .done, errCode := .none, errOffset := 0, out := seq, columns := h.c
                   rows := h.r, n := h.n, bi := h.n, sh := 7 })

/-- A running transaction ends: with the consumer holding the block back `k` times first and the host
presenting nothing else, the machine is in DONE with the whole image after `k` steps and as many more
as there are pixels left, and is BUSY before (R70, R71; the list of acts is the model's, log 13). -/
def Obligations.HeldTransactionStillFinishes : Prop :=
  ∀ (s : State) (k : Nat), s.Inv → s.phase = .busy → s.host = List.replicate k .hold →
    (∃ t, runSteps (k + s.pixelsLeft) s = .next t ∧ t.phase = .done ∧ t.errCode = .none ∧
      decodeRef s.cfg.dimPolicy s.inBuf s.len = .ok t.out) ∧
    (∀ j, j < k + s.pixelsLeft → ∃ t, runSteps j s = .next t ∧ t.phase = .busy)

/-- Bytes after the intensity plane change nothing, and neither does anything the two blocks did
before: two quiescent blocks with the same policy and inputs that agree on the first `8 + 4N` bytes
go through the same phases, cursors and outputs (R25, R68). -/
def Obligations.TrailingBytesChangeNothing : Prop :=
  ∀ s1 s2 : State, s1.phase ≠ .busy → s2.phase ≠ .busy → s1.cfg = s2.cfg → s1.MagicPresent →
    DimsAccepted s1.cfg.dimPolicy s1.fileColumns s1.fileRows →
    8 + 4 * (s1.fileColumns * s1.fileRows) ≤ s1.len.toNat →
    8 + 4 * (s1.fileColumns * s1.fileRows) ≤ s2.len.toNat →
    (∀ a, a < 8 + 4 * (s1.fileColumns * s1.fileRows) → s1.byteAt a = s2.byteAt a) →
    ∀ k, k ≤ 8 * (s1.fileColumns * s1.fileRows) →
      ∃ t1 t2, andThen (exec .start s1) (pixsteps k) = .next t1 ∧
        andThen (exec .start s2) (pixsteps k) = .next t2 ∧
        t1.out = t2.out ∧ t1.phase = t2.phase ∧ t1.bi = t2.bi ∧ t1.sh = t2.sh ∧
        t1.errCode = t2.errCode ∧ t1.errOffset = t2.errOffset ∧ t1.columns = t2.columns ∧
        t1.rows = t2.rows ∧ t1.n = t2.n

/-- The notation's DECODE line, run on the machine step by step, gives the reference function's image
or error for the bytes it loads (R43, R68; the list of acts is the model's, log 2). -/
def Obligations.DecodeLineGivesReferenceResult : Prop :=
  ∀ (s : State) (bytes : List Byte), s.phase ≠ .busy → s.host = [] → bytes.length < 2 ^ 64 →
    ∃ t, runLine (.decode bytes) s = .next t ∧ t.host = [] ∧ t.cfg = s.cfg ∧
      match decodeRef s.cfg.dimPolicy (Memory.ofBytes bytes) (BitVec.ofNat 64 bytes.length) with
      | .ok seq => t.phase = .done ∧ t.errCode = .none ∧ t.errOffset = 0 ∧ t.out = seq
      | .error (c, o) => t.phase = .error ∧ t.errCode = c ∧ t.errOffset = o ∧ t.out = []
end

