-- ==== Sys2Proof/Laws/Memory.lean ====
section
/-! SUPPORT. The laws of the input buffer: reading after a load or a write, and every operation keeps the canonical form. -/

namespace Sys2Proof.Machine.Memory

@[simp] theorem lookup_nil (a : Nat) : lookup [] a = unlistedByte := rfl

@[simp] theorem lookup_cons (k : Nat) (b : Byte) (m : List Host.Cell) (a : Nat) :
    lookup ((k, b) :: m) a = if k = a then b else lookup m a := rfl

@[simp] theorem wfFrom_nil (lo hi : Nat) : wfFrom lo hi [] = true := rfl

@[simp] theorem wfFrom_cons (lo hi k : Nat) (b : Byte) (m : List Host.Cell) :
    wfFrom lo hi ((k, b) :: m) = true ↔
      lo ≤ k ∧ k < hi ∧ b ≠ unlistedByte ∧ wfFrom (k + 1) hi m = true := by
  simp [wfFrom, and_assoc]

/-- A lower bound on the offsets may be lowered. -/
theorem wfFrom_mono {lo lo' hi : Nat} {m : List Host.Cell} (h : wfFrom lo hi m = true)
    (hlo : lo' ≤ lo) : wfFrom lo' hi m = true := by
  cases m with
  | nil => rfl
  | cons kb m =>
    obtain ⟨k, b⟩ := kb
    rw [wfFrom_cons] at h ⊢
    exact ⟨by omega, h.2⟩

/-- Below the first listed offset every byte is unlisted. -/
theorem lookup_below {lo hi : Nat} {m : List Host.Cell} (h : wfFrom lo hi m = true) {a : Nat}
    (ha : a < lo) : lookup m a = unlistedByte := by
  induction m generalizing lo with
  | nil => rfl
  | cons kb m ih =>
    obtain ⟨k, b⟩ := kb
    rw [wfFrom_cons] at h
    rw [lookup_cons, if_neg (by omega)]
    exact ih h.2.2.2 (by omega)

/-- Reading after a write, in a buffer in canonical form. -/
theorem lookup_store {lo hi : Nat} {m : List Host.Cell} (h : wfFrom lo hi m = true)
    (a : Nat) (b : Byte) (x : Nat) :
    lookup (store m a b) x = if a = x then b else lookup m x := by
  induction m generalizing lo with
  | nil =>
    by_cases hb : b = unlistedByte <;> by_cases hx : a = x <;> simp [store, hb, hx]
  | cons kc m ih =>
    obtain ⟨k, c⟩ := kc
    have hm := (wfFrom_cons lo hi k c m).1 h
    have hrest := ih hm.2.2.2
    have hbelow := fun {y : Nat} (hy : y < k + 1) => lookup_below hm.2.2.2 hy
    by_cases hb : b = unlistedByte
    · by_cases h1 : a < k
      · rw [show store ((k, c) :: m) a b = (k, c) :: m by simp [store, h1, hb]]
        by_cases hx : a = x
        · rw [if_pos hx, ← hx, lookup_cons, if_neg (by omega), hbelow (by omega), hb]
        · rw [if_neg hx]
      · by_cases h3 : a = k
        · rw [show store ((k, c) :: m) a b = m by simp [store, h3, hb]]
          by_cases hx : a = x
          · rw [if_pos hx, ← hx, hbelow (by omega), hb]
          · rw [if_neg hx, lookup_cons, if_neg (by omega)]
        · rw [show store ((k, c) :: m) a b = (k, c) :: store m a b by simp [store, h1, h3]]
          rw [lookup_cons, lookup_cons, hrest]
          by_cases hx : a = x
          · rw [if_pos hx, if_neg (by omega), if_pos hx]
          · rw [if_neg hx, if_neg hx]
    · by_cases h1 : a < k
      · rw [show store ((k, c) :: m) a b = (a, b) :: (k, c) :: m by simp [store, h1, hb],
          lookup_cons]
      · by_cases h3 : a = k
        · rw [show store ((k, c) :: m) a b = (a, b) :: m by simp [store, h3, hb], lookup_cons,
            lookup_cons]
          by_cases hx : a = x
          · rw [if_pos hx, if_pos hx]
          · rw [if_neg hx, if_neg hx, if_neg (by omega)]
        · rw [show store ((k, c) :: m) a b = (k, c) :: store m a b by simp [store, h1, h3]]
          rw [lookup_cons, lookup_cons, hrest]
          by_cases hx : a = x
          · rw [if_pos hx, if_neg (by omega), if_pos hx]
          · rw [if_neg hx, if_neg hx]

/-- A write below `hi` keeps the canonical form. -/
theorem wfFrom_store {lo hi : Nat} {m : List Host.Cell} (h : wfFrom lo hi m = true)
    {a : Nat} (hlo : lo ≤ a) (hhi : a < hi) (b : Byte) : wfFrom lo hi (store m a b) = true := by
  induction m generalizing lo with
  | nil =>
    unfold store
    split_ifs with hb
    · rfl
    · simp [hlo, hhi, hb]
  | cons kc m ih =>
    obtain ⟨k, c⟩ := kc
    have hm := (wfFrom_cons lo hi k c m).1 h
    unfold store
    split_ifs with h1 h2 h3 h4
    · exact h
    · rw [wfFrom_cons, wfFrom_cons]
      exact ⟨hlo, hhi, h2, by omega, hm.2⟩
    · exact wfFrom_mono hm.2.2.2 (by omega)
    · rw [wfFrom_cons]
      exact ⟨hlo, hhi, h4, h3 ▸ hm.2.2.2⟩
    · rw [wfFrom_cons]
      exact ⟨hm.1, hm.2.1, hm.2.2.1, ih hm.2.2.2 (by omega)⟩

/-- `store` keeps the canonical form of a buffer of `len` bytes. -/
theorem wf_store {len : Nat} {m : List Host.Cell} (h : wf m len = true) {a : Nat} (ha : a < len)
    (b : Byte) : wf (store m a b) len = true :=
  wfFrom_store h (Nat.zero_le a) ha b

/-- Cells made from bytes are in canonical form. -/
theorem wfFrom_ofBytesFrom (a : Nat) (bs : List Byte) :
    wfFrom a (a + bs.length) (ofBytesFrom a bs) = true := by
  induction bs generalizing a with
  | nil => rfl
  | cons b bs ih =>
    have hlen : a + (b :: bs).length = a + 1 + bs.length := by simp; omega
    rw [hlen]
    unfold ofBytesFrom
    split_ifs with hb
    · exact wfFrom_mono (ih (a + 1)) (by omega)
    · rw [wfFrom_cons]
      exact ⟨le_refl a, by omega, hb, ih (a + 1)⟩

/-- A loaded buffer is in canonical form. -/
theorem wf_ofBytes (bs : List Byte) : wf (ofBytes bs) bs.length = true := by
  have h := wfFrom_ofBytesFrom 0 bs
  rw [Nat.zero_add] at h
  exact h

/-- Reading cells made from bytes. -/
theorem lookup_ofBytesFrom (a : Nat) (bs : List Byte) (x : Nat) :
    lookup (ofBytesFrom a bs) (a + x) = bs.getD x unlistedByte := by
  induction bs generalizing a x with
  | nil => rfl
  | cons b bs ih =>
    have hnext : ∀ y, lookup (ofBytesFrom (a + 1) bs) (a + (y + 1)) = bs.getD y unlistedByte := by
      intro y
      rw [← ih (a + 1) y]
      congr 1
      omega
    have hfirst : lookup (ofBytesFrom (a + 1) bs) a = unlistedByte :=
      lookup_below (wfFrom_ofBytesFrom (a + 1) bs) (by omega)
    unfold ofBytesFrom
    split_ifs with hb <;> cases x with
    | zero => simp [hb, hfirst]
    | succ y => simp [hnext]

/-- Reading a loaded buffer gives the bytes it was loaded with. -/
theorem lookup_ofBytes (bs : List Byte) (x : Nat) :
    lookup (ofBytes bs) x = bs.getD x unlistedByte := by
  have h := lookup_ofBytesFrom 0 bs x
  rw [Nat.zero_add] at h
  exact h

/-- Two buffers in canonical form that read alike are the same data. -/
theorem wfFrom_ext {lo hi : Nat} {m m' : List Host.Cell} (h : wfFrom lo hi m = true)
    (h' : wfFrom lo hi m' = true) (heq : ∀ a, lookup m a = lookup m' a) : m = m' := by
  induction m generalizing lo m' with
  | nil =>
    cases m' with
    | nil => rfl
    | cons kb m' =>
      obtain ⟨k, b⟩ := kb
      have := heq k
      rw [wfFrom_cons] at h'
      simp at this
      exact absurd this.symm h'.2.2.1
  | cons kb m ih =>
    obtain ⟨k, b⟩ := kb
    have hm := (wfFrom_cons lo hi k b m).1 h
    cases m' with
    | nil =>
      have := heq k
      simp at this
      exact absurd this hm.2.2.1
    | cons kb' m' =>
      obtain ⟨k', b'⟩ := kb'
      have hm' := (wfFrom_cons lo hi k' b' m').1 h'
      have hk : k = k' := by
        by_contra hne
        rcases Nat.lt_or_gt_of_ne hne with hlt | hlt
        · have := heq k
          rw [lookup_cons, lookup_cons, if_pos rfl, if_neg (by omega),
            lookup_below hm'.2.2.2 (by omega)] at this
          exact hm.2.2.1 this
        · have := heq k'
          rw [lookup_cons, lookup_cons, if_pos rfl, if_neg (by omega),
            lookup_below hm.2.2.2 (by omega)] at this
          exact hm'.2.2.1 this.symm
      subst hk
      have hb : b = b' := by simpa using heq k
      subst hb
      have hrest : m = m' := by
        refine ih hm.2.2.2 hm'.2.2.2 fun a => ?_
        by_cases ha : k = a
        · subst ha
          rw [lookup_below hm.2.2.2 (by omega), lookup_below hm'.2.2.2 (by omega)]
        · simpa [ha] using heq a
      rw [hrest]

/-- Equal memories are equal data. -/
theorem wf_ext {len : Nat} {m m' : List Host.Cell} (h : wf m len = true) (h' : wf m' len = true)
    (heq : ∀ a, lookup m a = lookup m' a) : m = m' := wfFrom_ext h h' heq

end Sys2Proof.Machine.Memory
end

