-- ==== Sys2Proof/Laws/State.lean ====
section
/-! SUPPORT. What every named update of State leaves in every field, true by rfl, for simp. -/

namespace Sys2Proof.Machine

variable (s : State)

/-! `State.loadHeader` -/

@[simp] theorem State.loadHeader_phase (h : HdrResult) : (s.loadHeader h).phase = s.phase := rfl
@[simp] theorem State.loadHeader_errCode (h : HdrResult) : (s.loadHeader h).errCode = s.errCode := rfl
@[simp] theorem State.loadHeader_errOffset (h : HdrResult) : (s.loadHeader h).errOffset = s.errOffset := rfl
@[simp] theorem State.loadHeader_columns (h : HdrResult) : (s.loadHeader h).columns = h.c := rfl
@[simp] theorem State.loadHeader_rows (h : HdrResult) : (s.loadHeader h).rows = h.r := rfl
@[simp] theorem State.loadHeader_n (h : HdrResult) : (s.loadHeader h).n = h.n := rfl
@[simp] theorem State.loadHeader_bi (h : HdrResult) : (s.loadHeader h).bi = 0 := rfl
@[simp] theorem State.loadHeader_sh (h : HdrResult) : (s.loadHeader h).sh = 7 := rfl
@[simp] theorem State.loadHeader_out (h : HdrResult) : (s.loadHeader h).out = [] := rfl
@[simp] theorem State.loadHeader_inBuf (h : HdrResult) : (s.loadHeader h).inBuf = s.inBuf := rfl
@[simp] theorem State.loadHeader_len (h : HdrResult) : (s.loadHeader h).len = s.len := rfl
@[simp] theorem State.loadHeader_palRom (h : HdrResult) : (s.loadHeader h).palRom = s.palRom := rfl
@[simp] theorem State.loadHeader_cfg (h : HdrResult) : (s.loadHeader h).cfg = s.cfg := rfl
@[simp] theorem State.loadHeader_host (h : HdrResult) : (s.loadHeader h).host = s.host := rfl
@[simp] theorem State.loadHeader_result (h : HdrResult) : (s.loadHeader h).result = s.result := rfl

/-! `State.enterBusy` -/

@[simp] theorem State.enterBusy_phase : s.enterBusy.phase = .busy := rfl
@[simp] theorem State.enterBusy_errCode : s.enterBusy.errCode = .none := rfl
@[simp] theorem State.enterBusy_errOffset : s.enterBusy.errOffset = 0 := rfl
@[simp] theorem State.enterBusy_columns : s.enterBusy.columns = s.columns := rfl
@[simp] theorem State.enterBusy_rows : s.enterBusy.rows = s.rows := rfl
@[simp] theorem State.enterBusy_n : s.enterBusy.n = s.n := rfl
@[simp] theorem State.enterBusy_bi : s.enterBusy.bi = s.bi := rfl
@[simp] theorem State.enterBusy_sh : s.enterBusy.sh = s.sh := rfl
@[simp] theorem State.enterBusy_out : s.enterBusy.out = s.out := rfl
@[simp] theorem State.enterBusy_inBuf : s.enterBusy.inBuf = s.inBuf := rfl
@[simp] theorem State.enterBusy_len : s.enterBusy.len = s.len := rfl
@[simp] theorem State.enterBusy_palRom : s.enterBusy.palRom = s.palRom := rfl
@[simp] theorem State.enterBusy_cfg : s.enterBusy.cfg = s.cfg := rfl
@[simp] theorem State.enterBusy_host : s.enterBusy.host = s.host := rfl
@[simp] theorem State.enterBusy_result : s.enterBusy.result = s.result := rfl

/-! `State.raiseFormatError` -/

@[simp] theorem State.raiseFormatError_phase (c : ErrCode) (o : BitVec 64) : (s.raiseFormatError c o).phase = .error := rfl
@[simp] theorem State.raiseFormatError_errCode (c : ErrCode) (o : BitVec 64) : (s.raiseFormatError c o).errCode = c := rfl
@[simp] theorem State.raiseFormatError_errOffset (c : ErrCode) (o : BitVec 64) : (s.raiseFormatError c o).errOffset = o := rfl
@[simp] theorem State.raiseFormatError_columns (c : ErrCode) (o : BitVec 64) : (s.raiseFormatError c o).columns = s.columns := rfl
@[simp] theorem State.raiseFormatError_rows (c : ErrCode) (o : BitVec 64) : (s.raiseFormatError c o).rows = s.rows := rfl
@[simp] theorem State.raiseFormatError_n (c : ErrCode) (o : BitVec 64) : (s.raiseFormatError c o).n = s.n := rfl
@[simp] theorem State.raiseFormatError_bi (c : ErrCode) (o : BitVec 64) : (s.raiseFormatError c o).bi = s.bi := rfl
@[simp] theorem State.raiseFormatError_sh (c : ErrCode) (o : BitVec 64) : (s.raiseFormatError c o).sh = s.sh := rfl
@[simp] theorem State.raiseFormatError_out (c : ErrCode) (o : BitVec 64) : (s.raiseFormatError c o).out = s.out := rfl
@[simp] theorem State.raiseFormatError_inBuf (c : ErrCode) (o : BitVec 64) : (s.raiseFormatError c o).inBuf = s.inBuf := rfl
@[simp] theorem State.raiseFormatError_len (c : ErrCode) (o : BitVec 64) : (s.raiseFormatError c o).len = s.len := rfl
@[simp] theorem State.raiseFormatError_palRom (c : ErrCode) (o : BitVec 64) : (s.raiseFormatError c o).palRom = s.palRom := rfl
@[simp] theorem State.raiseFormatError_cfg (c : ErrCode) (o : BitVec 64) : (s.raiseFormatError c o).cfg = s.cfg := rfl
@[simp] theorem State.raiseFormatError_host (c : ErrCode) (o : BitVec 64) : (s.raiseFormatError c o).host = s.host := rfl
@[simp] theorem State.raiseFormatError_result (c : ErrCode) (o : BitVec 64) : (s.raiseFormatError c o).result = s.result := rfl

/-! `State.outAppend` -/

@[simp] theorem State.outAppend_phase (t : Triplet) : (s.outAppend t).phase = s.phase := rfl
@[simp] theorem State.outAppend_errCode (t : Triplet) : (s.outAppend t).errCode = s.errCode := rfl
@[simp] theorem State.outAppend_errOffset (t : Triplet) : (s.outAppend t).errOffset = s.errOffset := rfl
@[simp] theorem State.outAppend_columns (t : Triplet) : (s.outAppend t).columns = s.columns := rfl
@[simp] theorem State.outAppend_rows (t : Triplet) : (s.outAppend t).rows = s.rows := rfl
@[simp] theorem State.outAppend_n (t : Triplet) : (s.outAppend t).n = s.n := rfl
@[simp] theorem State.outAppend_bi (t : Triplet) : (s.outAppend t).bi = s.bi := rfl
@[simp] theorem State.outAppend_sh (t : Triplet) : (s.outAppend t).sh = s.sh := rfl
@[simp] theorem State.outAppend_out (t : Triplet) : (s.outAppend t).out = s.out ++ [t] := rfl
@[simp] theorem State.outAppend_inBuf (t : Triplet) : (s.outAppend t).inBuf = s.inBuf := rfl
@[simp] theorem State.outAppend_len (t : Triplet) : (s.outAppend t).len = s.len := rfl
@[simp] theorem State.outAppend_palRom (t : Triplet) : (s.outAppend t).palRom = s.palRom := rfl
@[simp] theorem State.outAppend_cfg (t : Triplet) : (s.outAppend t).cfg = s.cfg := rfl
@[simp] theorem State.outAppend_host (t : Triplet) : (s.outAppend t).host = s.host := rfl
@[simp] theorem State.outAppend_result (t : Triplet) : (s.outAppend t).result = s.result := rfl

/-! `State.advance` -/

theorem State.advance_phase : s.advance.phase = if s.sh.toNat = 0 ∧ s.bi + 1 = s.n then .done else s.phase := rfl
@[simp] theorem State.advance_errCode : s.advance.errCode = s.errCode := rfl
@[simp] theorem State.advance_errOffset : s.advance.errOffset = s.errOffset := rfl
@[simp] theorem State.advance_columns : s.advance.columns = s.columns := rfl
@[simp] theorem State.advance_rows : s.advance.rows = s.rows := rfl
@[simp] theorem State.advance_n : s.advance.n = s.n := rfl
theorem State.advance_bi : s.advance.bi = if 0 < s.sh.toNat then s.bi else s.bi + 1 := rfl
theorem State.advance_sh : s.advance.sh = if 0 < s.sh.toNat then s.sh - 1 else 7 := rfl
@[simp] theorem State.advance_out : s.advance.out = s.out := rfl
@[simp] theorem State.advance_inBuf : s.advance.inBuf = s.inBuf := rfl
@[simp] theorem State.advance_len : s.advance.len = s.len := rfl
@[simp] theorem State.advance_palRom : s.advance.palRom = s.palRom := rfl
@[simp] theorem State.advance_cfg : s.advance.cfg = s.cfg := rfl
@[simp] theorem State.advance_host : s.advance.host = s.host := rfl
@[simp] theorem State.advance_result : s.advance.result = s.result := rfl

/-! `State.resetBlock` -/

@[simp] theorem State.resetBlock_phase : s.resetBlock.phase = .idle := rfl
@[simp] theorem State.resetBlock_errCode : s.resetBlock.errCode = .none := rfl
@[simp] theorem State.resetBlock_errOffset : s.resetBlock.errOffset = 0 := rfl
@[simp] theorem State.resetBlock_columns : s.resetBlock.columns = 0 := rfl
@[simp] theorem State.resetBlock_rows : s.resetBlock.rows = 0 := rfl
@[simp] theorem State.resetBlock_n : s.resetBlock.n = 0 := rfl
@[simp] theorem State.resetBlock_bi : s.resetBlock.bi = 0 := rfl
@[simp] theorem State.resetBlock_sh : s.resetBlock.sh = 7 := rfl
@[simp] theorem State.resetBlock_out : s.resetBlock.out = [] := rfl
@[simp] theorem State.resetBlock_inBuf : s.resetBlock.inBuf = s.inBuf := rfl
@[simp] theorem State.resetBlock_len : s.resetBlock.len = s.len := rfl
@[simp] theorem State.resetBlock_palRom : s.resetBlock.palRom = s.palRom := rfl
@[simp] theorem State.resetBlock_cfg : s.resetBlock.cfg = s.cfg := rfl
@[simp] theorem State.resetBlock_host : s.resetBlock.host = s.host := rfl
@[simp] theorem State.resetBlock_result : s.resetBlock.result = .none := rfl

/-! `State.setResult` -/

@[simp] theorem State.setResult_phase (v : DatapathResult) : (s.setResult v).phase = s.phase := rfl
@[simp] theorem State.setResult_errCode (v : DatapathResult) : (s.setResult v).errCode = s.errCode := rfl
@[simp] theorem State.setResult_errOffset (v : DatapathResult) : (s.setResult v).errOffset = s.errOffset := rfl
@[simp] theorem State.setResult_columns (v : DatapathResult) : (s.setResult v).columns = s.columns := rfl
@[simp] theorem State.setResult_rows (v : DatapathResult) : (s.setResult v).rows = s.rows := rfl
@[simp] theorem State.setResult_n (v : DatapathResult) : (s.setResult v).n = s.n := rfl
@[simp] theorem State.setResult_bi (v : DatapathResult) : (s.setResult v).bi = s.bi := rfl
@[simp] theorem State.setResult_sh (v : DatapathResult) : (s.setResult v).sh = s.sh := rfl
@[simp] theorem State.setResult_out (v : DatapathResult) : (s.setResult v).out = s.out := rfl
@[simp] theorem State.setResult_inBuf (v : DatapathResult) : (s.setResult v).inBuf = s.inBuf := rfl
@[simp] theorem State.setResult_len (v : DatapathResult) : (s.setResult v).len = s.len := rfl
@[simp] theorem State.setResult_palRom (v : DatapathResult) : (s.setResult v).palRom = s.palRom := rfl
@[simp] theorem State.setResult_cfg (v : DatapathResult) : (s.setResult v).cfg = s.cfg := rfl
@[simp] theorem State.setResult_host (v : DatapathResult) : (s.setResult v).host = s.host := rfl
@[simp] theorem State.setResult_result (v : DatapathResult) : (s.setResult v).result = v := rfl

/-! `State.setInput` -/

@[simp] theorem State.setInput_phase (m : List Host.Cell) (l : BitVec 64) : (s.setInput m l).phase = s.phase := rfl
@[simp] theorem State.setInput_errCode (m : List Host.Cell) (l : BitVec 64) : (s.setInput m l).errCode = s.errCode := rfl
@[simp] theorem State.setInput_errOffset (m : List Host.Cell) (l : BitVec 64) : (s.setInput m l).errOffset = s.errOffset := rfl
@[simp] theorem State.setInput_columns (m : List Host.Cell) (l : BitVec 64) : (s.setInput m l).columns = s.columns := rfl
@[simp] theorem State.setInput_rows (m : List Host.Cell) (l : BitVec 64) : (s.setInput m l).rows = s.rows := rfl
@[simp] theorem State.setInput_n (m : List Host.Cell) (l : BitVec 64) : (s.setInput m l).n = s.n := rfl
@[simp] theorem State.setInput_bi (m : List Host.Cell) (l : BitVec 64) : (s.setInput m l).bi = s.bi := rfl
@[simp] theorem State.setInput_sh (m : List Host.Cell) (l : BitVec 64) : (s.setInput m l).sh = s.sh := rfl
@[simp] theorem State.setInput_out (m : List Host.Cell) (l : BitVec 64) : (s.setInput m l).out = s.out := rfl
@[simp] theorem State.setInput_inBuf (m : List Host.Cell) (l : BitVec 64) : (s.setInput m l).inBuf = m := rfl
@[simp] theorem State.setInput_len (m : List Host.Cell) (l : BitVec 64) : (s.setInput m l).len = l := rfl
@[simp] theorem State.setInput_palRom (m : List Host.Cell) (l : BitVec 64) : (s.setInput m l).palRom = s.palRom := rfl
@[simp] theorem State.setInput_cfg (m : List Host.Cell) (l : BitVec 64) : (s.setInput m l).cfg = s.cfg := rfl
@[simp] theorem State.setInput_host (m : List Host.Cell) (l : BitVec 64) : (s.setInput m l).host = s.host := rfl
@[simp] theorem State.setInput_result (m : List Host.Cell) (l : BitVec 64) : (s.setInput m l).result = s.result := rfl

/-! `State.setHost` -/

@[simp] theorem State.setHost_phase (acts : List HostAct) : (s.setHost acts).phase = s.phase := rfl
@[simp] theorem State.setHost_errCode (acts : List HostAct) : (s.setHost acts).errCode = s.errCode := rfl
@[simp] theorem State.setHost_errOffset (acts : List HostAct) : (s.setHost acts).errOffset = s.errOffset := rfl
@[simp] theorem State.setHost_columns (acts : List HostAct) : (s.setHost acts).columns = s.columns := rfl
@[simp] theorem State.setHost_rows (acts : List HostAct) : (s.setHost acts).rows = s.rows := rfl
@[simp] theorem State.setHost_n (acts : List HostAct) : (s.setHost acts).n = s.n := rfl
@[simp] theorem State.setHost_bi (acts : List HostAct) : (s.setHost acts).bi = s.bi := rfl
@[simp] theorem State.setHost_sh (acts : List HostAct) : (s.setHost acts).sh = s.sh := rfl
@[simp] theorem State.setHost_out (acts : List HostAct) : (s.setHost acts).out = s.out := rfl
@[simp] theorem State.setHost_inBuf (acts : List HostAct) : (s.setHost acts).inBuf = s.inBuf := rfl
@[simp] theorem State.setHost_len (acts : List HostAct) : (s.setHost acts).len = s.len := rfl
@[simp] theorem State.setHost_palRom (acts : List HostAct) : (s.setHost acts).palRom = s.palRom := rfl
@[simp] theorem State.setHost_cfg (acts : List HostAct) : (s.setHost acts).cfg = s.cfg := rfl
@[simp] theorem State.setHost_host (acts : List HostAct) : (s.setHost acts).host = acts := rfl
@[simp] theorem State.setHost_result (acts : List HostAct) : (s.setHost acts).result = s.result := rfl

/-! Setting the acts twice, and to what they were -/

@[simp] theorem State.setHost_setHost (a b : List HostAct) : (s.setHost a).setHost b = s.setHost b := rfl
@[simp] theorem State.setHost_self : s.setHost s.host = s := rfl

/-! `Advance` by R65's three cases, and past an appended triplet -/

theorem State.advance_inner {s : State} (h : 0 < s.sh.toNat) :
    s.advance = { s with sh := s.sh - 1 } := by
  have h0 : s.sh.toNat ≠ 0 := by omega
  simp [State.advance, h, h0]

theorem State.advance_next {s : State} (h : s.sh.toNat = 0) (hn : s.bi + 1 ≠ s.n) :
    s.advance = { s with sh := 7, bi := s.bi + 1 } := by
  have hn' : ¬ s.bi + 1#32 = s.n := hn
  simp [State.advance, h, hn']

theorem State.advance_last {s : State} (h : s.sh.toNat = 0) (hn : s.bi + 1 = s.n) :
    s.advance = { s with sh := 7, bi := s.bi + 1, phase := .done } := by
  have hn' : s.bi + 1#32 = s.n := hn
  simp [State.advance, h, hn']

theorem State.outAppend_advance (t : Triplet) : (s.outAppend t).advance = s.advance.outAppend t := rfl

/-- The one ROM there is: every value of the field is it. -/
theorem PalRom.eq_rom (p : PalRom) : p = PalRom.rom := by
  obtain ⟨e, h⟩ := p
  subst h
  rfl

end Sys2Proof.Machine
end

