-- ==== Sys2Proof/Laws/Ops.lean ====
section
/-! SUPPORT. What each shared operation can do, said once: reads, the palette, the header check, one pixel. -/

namespace Sys2Proof.Machine

/-! Reads -/

theorem State.readByte_ok {s : State} {a : Nat} (h : a < s.len.toNat) :
    s.readByte a = .ok (s.byteAt a) := if_pos h

theorem State.readByte_outOfBounds {s : State} {a : Nat} (h : s.len.toNat ≤ a) :
    s.readByte a = .error (.outOfBounds a) := if_neg (by omega)

/-- A read answers the byte of an offset below `L` and nothing else. -/
theorem State.readByte_eq_ok {s : State} {a : Nat} {b : Byte} (h : s.readByte a = .ok b) :
    a < s.len.toNat ∧ b = s.byteAt a := by
  unfold State.readByte at h
  split at h
  · next hlt => exact ⟨hlt, by simpa using h.symm⟩
  · cases h

/-- With eight bytes there, the header word is theirs. -/
theorem State.headerWord_ok {s : State} (h : headerLength ≤ s.len.toNat) :
    s.headerWord = .ok (headerWordOf s.inBuf) := by
  have hb : ∀ a, a < 8 → s.readByte a = .ok (s.byteAt a) := fun a ha =>
    State.readByte_ok (Nat.lt_of_lt_of_le ha h)
  simp only [State.headerWord, hb 0 (by omega), hb 1 (by omega), hb 2 (by omega), hb 3 (by omega),
    hb 4 (by omega), hb 5 (by omega), hb 6 (by omega), hb 7 (by omega)]
  rfl

/-- With fewer than eight bytes HDRCHECK does not look at the header word. -/
theorem hdrCheck_short {p : DimPolicy} {h : BitVec 64} {l : BitVec 64}
    (hl : l.toNat < headerLength) :
    hdrCheck p h l =
      { ok := false, code := .truncatedInput, offset := l, c := 0, r := 0, n := 0 } := if_pos hl

/-- The header check of a buffer never faults: it is HDRCHECK of the buffer's header word. -/
theorem State.headerCheck_eq (s : State) :
    s.headerCheck = .ok (headerOf s.cfg.dimPolicy s.inBuf s.len) := by
  unfold State.headerCheck headerOf
  by_cases h : s.len.toNat < headerLength
  · rw [if_pos h, hdrCheck_short h, hdrCheck_short h]
  · rw [if_neg h, State.headerWord_ok (by omega)]

/-- The four plane bytes, all in bounds. -/
theorem State.planeBytes_ok {s : State} {i : BitVec 32} (hi : i.toNat < s.n.toNat)
    (hp : requiredLength s.n ≤ s.len.toNat) :
    s.planeBytes i = .ok
      { b := s.byteAt (planeOffset s.n 0 i), g := s.byteAt (planeOffset s.n 1 i)
        r := s.byteAt (planeOffset s.n 2 i), i8 := s.byteAt (planeOffset s.n 3 i) } := by
  have hlt : ∀ k, k < 4 → planeOffset s.n k i < s.len.toNat := by
    intro k hk
    have hk' : k * s.n.toNat ≤ 3 * s.n.toNat := Nat.mul_le_mul_right _ (by omega)
    simp only [planeOffset, requiredLength, headerLength, planeCount] at *
    omega
  simp only [State.planeBytes, State.readByte_ok (hlt 0 (by omega)),
    State.readByte_ok (hlt 1 (by omega)), State.readByte_ok (hlt 2 (by omega)),
    State.readByte_ok (hlt 3 (by omega))]
  rfl

/-- Whatever plane bytes a read answers are those of the buffer. -/
theorem State.planeBytes_eq_ok {s : State} {i : BitVec 32} {p : PlaneBytes}
    (h : s.planeBytes i = .ok p) :
    p = { b := s.byteAt (planeOffset s.n 0 i), g := s.byteAt (planeOffset s.n 1 i)
          r := s.byteAt (planeOffset s.n 2 i), i8 := s.byteAt (planeOffset s.n 3 i) } := by
  unfold State.planeBytes State.readByte at h
  split_ifs at h <;> simp_all [bind, Except.bind, pure, Except.pure]

/-! The palette -/

/-- The ROM and the adder rule are one function (C4, R58). -/
theorem palRom_read (p : PalRom) (x : PixelIndex) : p.read x = palMap x := by
  rw [p.eq_rom]
  revert x
  decide

/-! The header check -/

/-- A 16-bit little-endian field as a number. -/
theorem le16_toNat (lo hi : Byte) : (le16 lo hi).toNat = lo.toNat + 256 * hi.toNat := by
  have h1 := lo.isLt
  have h2 := hi.isLt
  unfold le16
  rw [BitVec.toNat_or, BitVec.toNat_shiftLeft, BitVec.toNat_setWidth, BitVec.toNat_setWidth,
    Nat.mod_eq_of_lt (a := lo.toNat) (by omega), Nat.mod_eq_of_lt (a := hi.toNat) (by omega),
    Nat.shiftLeft_eq, Nat.mod_eq_of_lt (by omega), Nat.or_comm, Nat.mul_comm,
    ← Nat.two_pow_add_eq_or_of_lt (i := 8) h1]
  omega

/-- `N` is the exact product (R14). -/
theorem planeSize_toNat (c r : BitVec 16) : (planeSize c r).toNat = c.toNat * r.toNat := by
  have h1 := c.isLt
  have h2 := r.isLt
  have h3 : c.toNat * r.toNat < 2 ^ 32 := by nlinarith
  simp only [planeSize, BitVec.toNat_mul, BitVec.toNat_setWidth]
  rw [Nat.mod_eq_of_lt (a := c.toNat) (by omega), Nat.mod_eq_of_lt (a := r.toNat) (by omega),
    Nat.mod_eq_of_lt h3]

/-- The five outcomes of HDRCHECK, in the order it checks (R48, R77). -/
theorem hdrCheck_cases (p : DimPolicy) (h : BitVec 64) (l : BitVec 64) :
    (l.toNat < headerLength ∧ hdrCheck p h l =
      { ok := false, code := .truncatedInput, offset := l, c := 0, r := 0, n := 0 }) ∨
    (headerLength ≤ l.toNat ∧ hdrMagic h ≠ magicWord ∧ hdrCheck p h l =
      { ok := false, code := .badMagic, offset := 0, c := hdrColumns h, r := hdrRows h
        n := planeSize (hdrColumns h) (hdrRows h) }) ∨
    (headerLength ≤ l.toNat ∧ hdrMagic h = magicWord ∧
      dimOk p (hdrColumns h) (hdrRows h) = false ∧ hdrCheck p h l =
      { ok := false, code := .unsupportedDimensions, offset := 0, c := hdrColumns h, r := hdrRows h
        n := planeSize (hdrColumns h) (hdrRows h) }) ∨
    (headerLength ≤ l.toNat ∧ hdrMagic h = magicWord ∧
      dimOk p (hdrColumns h) (hdrRows h) = true ∧
      l.toNat < requiredLength (planeSize (hdrColumns h) (hdrRows h)) ∧ hdrCheck p h l =
      { ok := false, code := .truncatedInput, offset := l, c := hdrColumns h, r := hdrRows h
        n := planeSize (hdrColumns h) (hdrRows h) }) ∨
    (headerLength ≤ l.toNat ∧ hdrMagic h = magicWord ∧
      dimOk p (hdrColumns h) (hdrRows h) = true ∧
      requiredLength (planeSize (hdrColumns h) (hdrRows h)) ≤ l.toNat ∧ hdrCheck p h l =
      { ok := true, code := .none, offset := 0, c := hdrColumns h, r := hdrRows h
        n := planeSize (hdrColumns h) (hdrRows h) }) := by
  by_cases h1 : l.toNat < headerLength
  · exact .inl ⟨h1, hdrCheck_short h1⟩
  by_cases h2 : hdrMagic h = magicWord
  · cases h3 : dimOk p (hdrColumns h) (hdrRows h)
    · exact .inr (.inr (.inl ⟨by omega, h2, rfl, by simp [hdrCheck, h1, h2, h3]⟩))
    · by_cases h4 : l.toNat < requiredLength (planeSize (hdrColumns h) (hdrRows h))
      · exact .inr (.inr (.inr (.inl ⟨by omega, h2, rfl, h4, by simp [hdrCheck, h1, h2, h3, h4]⟩)))
      · exact .inr (.inr (.inr (.inr
          ⟨by omega, h2, rfl, by omega, by simp [hdrCheck, h1, h2, h3, h4]⟩)))
  · exact .inr (.inl ⟨by omega, h2, by simp [hdrCheck, h1, h2]⟩)

/-- What a passed header check says (R48, R49). -/
theorem hdrCheck_ok {p : DimPolicy} {h : BitVec 64} {l : BitVec 64}
    (hok : (hdrCheck p h l).ok = true) :
    headerLength ≤ l.toNat ∧ hdrMagic h = magicWord ∧ dimOk p (hdrColumns h) (hdrRows h) = true ∧
      requiredLength (planeSize (hdrColumns h) (hdrRows h)) ≤ l.toNat ∧
      hdrCheck p h l =
        { ok := true, code := .none, offset := 0, c := hdrColumns h, r := hdrRows h
          n := planeSize (hdrColumns h) (hdrRows h) } := by
  obtain h' | h' | h' | h' | h' := hdrCheck_cases p h l
  · simp [h'.2] at hok
  · simp [h'.2.2] at hok
  · simp [h'.2.2.2] at hok
  · simp [h'.2.2.2.2] at hok
  · exact h'

/-- What a failed header check says: an error code, and an offset only with a truncation (R11, R48). -/
theorem hdrCheck_failed {p : DimPolicy} {h : BitVec 64} {l : BitVec 64}
    (hok : (hdrCheck p h l).ok = false) :
    (hdrCheck p h l).code ≠ .none ∧
      ((hdrCheck p h l).code ≠ .truncatedInput → (hdrCheck p h l).offset = 0) := by
  obtain h' | h' | h' | h' | h' := hdrCheck_cases p h l
  · simp [h'.2]
  · simp [h'.2.2]
  · simp [h'.2.2.2]
  · simp [h'.2.2.2.2]
  · simp [h'.2.2.2.2] at hok

/-- `n` is the product of the fields, whether or not the check passes. -/
theorem hdrCheck_size (p : DimPolicy) (h : BitVec 64) (l : BitVec 64) :
    (hdrCheck p h l).n.toNat = (hdrCheck p h l).c.toNat * (hdrCheck p h l).r.toNat := by
  obtain h' | h' | h' | h' | h' := hdrCheck_cases p h l
  · simp [h'.2]
  · simp [h'.2.2, planeSize_toNat]
  · simp [h'.2.2.2, planeSize_toNat]
  · simp [h'.2.2.2.2, planeSize_toNat]
  · simp [h'.2.2.2.2, planeSize_toNat]

/-- Accepted dimensions are positive under both policies (R46, D4). -/
theorem dimOk_pos {p : DimPolicy} {c r : BitVec 16} (h : dimOk p c r = true) :
    1 ≤ c.toNat ∧ 1 ≤ r.toNat := by
  cases p <;> simp [dimOk] at h <;> omega

/-- The same over plain numbers. -/
theorem dimOk_iff (p : DimPolicy) (c r : BitVec 16) :
    dimOk p c r = true ↔ DimsAccepted p c.toNat r.toNat := by
  cases p <;> simp [dimOk, DimsAccepted]

/-! The header word of a buffer -/

theorem hdrColumns_headerWordOf (m : List Host.Cell) :
    hdrColumns (headerWordOf m) = le16 (Memory.lookup m 4) (Memory.lookup m 5) := by
  unfold hdrColumns headerWordOf
  congr 1 <;>
    (apply BitVec.eq_of_getLsbD_eq
     intro k hk
     simp only [BitVec.getLsbD_append, BitVec.getLsbD_extractLsb']
     grind)

theorem hdrRows_headerWordOf (m : List Host.Cell) :
    hdrRows (headerWordOf m) = le16 (Memory.lookup m 6) (Memory.lookup m 7) := by
  unfold hdrRows headerWordOf
  congr 1 <;>
    (apply BitVec.eq_of_getLsbD_eq
     intro k hk
     simp only [BitVec.getLsbD_append, BitVec.getLsbD_extractLsb']
     grind)

theorem hdrMagic_headerWordOf (m : List Host.Cell) :
    hdrMagic (headerWordOf m) =
      Memory.lookup m 0 ++ Memory.lookup m 1 ++ Memory.lookup m 2 ++ Memory.lookup m 3 := by
  unfold hdrMagic headerWordOf
  apply BitVec.eq_of_getLsbD_eq
  intro k hk
  simp only [BitVec.getLsbD_append, BitVec.getLsbD_extractLsb']
  grind

/-! START -/

@[simp] theorem State.beginTransaction_inBuf (s : State) (h : HdrResult) :
    (s.beginTransaction h).inBuf = s.inBuf := by unfold State.beginTransaction; split <;> rfl
@[simp] theorem State.beginTransaction_len (s : State) (h : HdrResult) :
    (s.beginTransaction h).len = s.len := by unfold State.beginTransaction; split <;> rfl
@[simp] theorem State.beginTransaction_cfg (s : State) (h : HdrResult) :
    (s.beginTransaction h).cfg = s.cfg := by unfold State.beginTransaction; split <;> rfl
@[simp] theorem State.beginTransaction_host (s : State) (h : HdrResult) :
    (s.beginTransaction h).host = s.host := by unfold State.beginTransaction; split <;> rfl
@[simp] theorem State.beginTransaction_palRom (s : State) (h : HdrResult) :
    (s.beginTransaction h).palRom = s.palRom := by unfold State.beginTransaction; split <;> rfl
@[simp] theorem State.beginTransaction_result (s : State) (h : HdrResult) :
    (s.beginTransaction h).result = s.result := by unfold State.beginTransaction; split <;> rfl
@[simp] theorem State.beginTransaction_out (s : State) (h : HdrResult) :
    (s.beginTransaction h).out = [] := by unfold State.beginTransaction; split <;> rfl
@[simp] theorem State.beginTransaction_bi (s : State) (h : HdrResult) :
    (s.beginTransaction h).bi = 0 := by unfold State.beginTransaction; split <;> rfl
@[simp] theorem State.beginTransaction_sh (s : State) (h : HdrResult) :
    (s.beginTransaction h).sh = 7 := by unfold State.beginTransaction; split <;> rfl
@[simp] theorem State.beginTransaction_columns (s : State) (h : HdrResult) :
    (s.beginTransaction h).columns = h.c := by unfold State.beginTransaction; split <;> rfl
@[simp] theorem State.beginTransaction_rows (s : State) (h : HdrResult) :
    (s.beginTransaction h).rows = h.r := by unfold State.beginTransaction; split <;> rfl
@[simp] theorem State.beginTransaction_n (s : State) (h : HdrResult) :
    (s.beginTransaction h).n = h.n := by unfold State.beginTransaction; split <;> rfl

/-- START never faults: outside BUSY it begins a transaction with the buffer's header. -/
theorem execStart_quiescent {s : State} (h : s.phase ≠ .busy) :
    execStart s = .next (s.beginTransaction (headerOf s.cfg.dimPolicy s.inBuf s.len)) := by
  unfold execStart
  rw [if_neg h, State.headerCheck_eq]

/-- If START answers a next state, the phase was not BUSY and that state is the begun transaction. -/
theorem execStart_cases {s t : State} (h : execStart s = .next t) :
    s.phase ≠ .busy ∧ t = s.beginTransaction (headerOf s.cfg.dimPolicy s.inBuf s.len) := by
  by_cases hb : s.phase = .busy
  · simp [execStart, hb] at h
  · rw [execStart_quiescent hb] at h
    exact ⟨hb, by simpa using h.symm⟩

/-! PIXSTEP -/

/-- The pixel at the cursor is PIXEL at the cursor's flat index (R53, R64, R68). -/
theorem State.pixelOf_eq {s : State} {p : PlaneBytes} (h : s.planeBytes s.bi = .ok p) :
    s.pixelOf p = pixel s.inBuf s.n.toNat s.cursor := by
  have hsh := s.sh.isLt
  have hi : byteIndexOf s.cursor = s.bi.toNat := by
    simp only [byteIndexOf, State.cursor, flatIndex]; omega
  have hs : shiftOf s.cursor = s.sh.toNat := by
    simp only [shiftOf, State.cursor, flatIndex]; omega
  rw [State.planeBytes_eq_ok h]
  simp only [State.pixelOf, palRom_read, pixel, hi, hs, planeOffset, headerLength, State.byteAt,
    BitVec.ofNat_toNat, BitVec.setWidth_eq]
  norm_num

/-- If PIXSTEP answers a next state, it emitted the pixel at the cursor, or was not enabled. -/
theorem execPixstep_cases {s t : State} (h : execPixstep s = .next t) :
    (s.phase = .busy ∧ t = (s.outAppend (pixel s.inBuf s.n.toNat s.cursor)).advance) ∨
      (s.phase ≠ .busy ∧ t = s) := by
  unfold execPixstep at h
  split at h
  · next hb =>
    split at h
    · next p hp =>
      rw [State.pixelOf_eq hp] at h
      exact .inl ⟨hb, by simpa using h.symm⟩
    · cases h
  · next hb => exact .inr ⟨hb, by simpa using h.symm⟩

/-- PIXSTEP with the input present emits the pixel at the cursor. -/
theorem execPixstep_busy {s : State} (hb : s.phase = .busy) (hi : s.bi.toNat < s.n.toNat)
    (hp : requiredLength s.n ≤ s.len.toNat) :
    execPixstep s = .next ((s.outAppend (pixel s.inBuf s.n.toNat s.cursor)).advance) := by
  unfold execPixstep
  rw [if_pos hb, State.planeBytes_ok hi hp]
  simp only
  rw [State.pixelOf_eq (State.planeBytes_ok hi hp)]

/-- PIXSTEP that is not enabled changes nothing. -/
theorem execPixstep_quiescent {s : State} (h : s.phase ≠ .busy) : execPixstep s = .next s := if_neg h

/-! The cursor -/

/-- A byte-index below `N` does not wrap when it advances (R65). -/
theorem bi_succ {b n : BitVec 32} (h : b.toNat < n.toNat) : (b + 1).toNat = b.toNat + 1 := by
  have hn := n.isLt
  rw [BitVec.toNat_add, show (1 : BitVec 32).toNat = 1 from rfl]
  omega

theorem bi_succ_eq {b n : BitVec 32} (h : b.toNat < n.toNat) :
    b + 1 = n ↔ b.toNat + 1 = n.toNat := by
  rw [← BitVec.toNat_inj, bi_succ h]

theorem sh_pred {s : BitVec 3} (h : 0 < s.toNat) : (s - 1).toNat = s.toNat - 1 := by
  revert s
  decide

theorem sh_eq_zero (s : BitVec 3) : s = 0 ↔ s.toNat = 0 := by
  revert s
  decide

/-- The cursor moves to the next flat index (R53, R65). -/
theorem State.advance_cursor {s : State} (h : s.bi.toNat < s.n.toNat) :
    s.advance.cursor = s.cursor + 1 := by
  have hs := s.sh.isLt
  by_cases h0 : 0 < s.sh.toNat
  · rw [State.advance_inner h0]
    simp only [State.cursor, flatIndex, sh_pred h0]
    omega
  · have hcase : s.advance.bi = s.bi + 1 ∧ s.advance.sh = 7 := by
      rw [State.advance_bi, State.advance_sh, if_neg h0, if_neg h0]
      exact ⟨rfl, rfl⟩
    simp only [State.cursor, flatIndex, hcase, bi_succ h]
    change 8 * (s.bi.toNat + 1) + (7 - 7) = _
    omega

/-! The reference image -/

@[simp] theorem pixels_length (m : List Host.Cell) (n k : Nat) : (pixels m n k).length = k := by
  simp [pixels]

@[simp] theorem pixels_zero (m : List Host.Cell) (n : Nat) : pixels m n 0 = [] := rfl

theorem pixels_succ (m : List Host.Cell) (n k : Nat) :
    pixels m n (k + 1) = pixels m n k ++ [pixel m n k] := by
  simp [pixels, List.range_succ]

/-! Runs of the model's own notation -/

@[simp] theorem andThen_next (s : State) (k : State → Host.Outcome State Fault Refusal) :
    andThen (.next s) k = k s := rfl

@[simp] theorem runSteps_zero (s : State) : runSteps 0 s = .next s := rfl

/-- `runSteps` is the host's own run of the machine. -/
theorem core_run_eq_runSteps (k : Nat) : ∀ s : State, Host.Core.run core k s = runSteps k s := by
  induction k with
  | zero => exact fun _ => rfl
  | succ k ih =>
    intro s
    cases h : step s with
    | next t =>
      have h1 : Host.Core.run core (k + 1) s = Host.Core.run core k t := by
        simp only [Host.Core.run, core, h]
      have h2 : runSteps (k + 1) s = runSteps k t := by simp [runSteps, h]
      exact h1.trans ((ih t).trans h2.symm)
    | fault f => simp [Host.Core.run, core, runSteps, h]
    | refused r => simp [Host.Core.run, core, runSteps, h]

@[simp] theorem pixsteps_zero (s : State) : pixsteps 0 s = .next s := rfl

end Sys2Proof.Machine
end

