-- ==== Sys2Proof/Laws/PerInstr.lean ====
section
/-! SUPPORT. The statement made of each instruction by itself: its word is written in the format of its row of spec/opcode_table.json, and the decoder refuses no such word. -/

namespace Sys2Proof.Laws.EncodedFormat

/-- The word of `i` has the row's format, and every word of that very form is accepted. -/
def Statement (i : Instr) : Prop :=
  (encode i).format = i.format ∧ (decode (encode i)).isOk = true

theorem start : Statement .start := ⟨rfl, rfl⟩
theorem reset : Statement .reset := ⟨rfl, rfl⟩
theorem pixstep : Statement .pixstep := ⟨rfl, rfl⟩
theorem hdrcheck (h : BitVec 64) : Statement (.hdrcheck h) := ⟨rfl, rfl⟩
theorem unpack1 (i8 r g b : Byte) (sh : BitVec 3) : Statement (.unpack1 i8 r g b sh) := ⟨rfl, rfl⟩
theorem unpack8 (i8 r g b : Byte) : Statement (.unpack8 i8 r g b) := ⟨rfl, rfl⟩
theorem palmap (x : PixelIndex) : Statement (.palmap x) := ⟨rfl, rfl⟩

end Sys2Proof.Laws.EncodedFormat
end

