-- ==== Sys2Proof/Laws/Step.lean ====
section
/-! SUPPORT. What one step can do, said once. -/

namespace Sys2Proof.Machine

/-- The block's own step is PIXSTEP in every phase: outside BUSY neither changes anything. -/
theorem runWord_own (s : State) : runWord (ownWord s) s = exec .pixstep s := by
  by_cases h : s.phase = .busy
  · simp [runWord, ownWord, decode, decodePhase, h, phaseCode]
  · have hd : decode (ownWord s) = .error .noEnabledStep := by
      cases hp : s.phase <;> simp_all [ownWord, decode, decodePhase, phaseCode]
    rw [runWord, hd]
    exact (execPixstep_quiescent h).symm

/-- A step with nothing presented. -/
theorem step_no_host {s : State} (h : s.host = []) : step s = exec .pixstep s := by
  rw [← runWord_own]
  simp [step, runFetched, fetch, h]

/-- A step whose host act is taken. -/
theorem step_host {s : State} {a : HostAct} {rest : List HostAct} (h : s.host = a :: rest) :
    step s = runFetched (fetchAct a (s.setHost rest)) := by
  have hf : fetch s = fetchAct a (s.setHost rest) := by simp only [fetch, h]
  exact congrArg runFetched hf

theorem step_command_none {s : State} {rest : List HostAct} (h : s.host = .command 0#2 :: rest) :
    step s = exec .pixstep (s.setHost rest) := by
  rw [step_host h, ← runWord_own]
  rfl

theorem step_command_start {s : State} {rest : List HostAct} (h : s.host = .command 1#2 :: rest) :
    step s = exec .start (s.setHost rest) := by
  rw [step_host h]
  rfl

theorem step_command_reset {s : State} {rest : List HostAct} (h : s.host = .command 2#2 :: rest) :
    step s = exec .reset (s.setHost rest) := by
  rw [step_host h]
  rfl

theorem step_command_reserved {s : State} {rest : List HostAct}
    (h : s.host = .command 3#2 :: rest) : step s = .refused .reservedCommand := by
  rw [step_host h]
  rfl

theorem step_load {s : State} {bytes : List Byte} {rest : List HostAct}
    (h : s.host = .load bytes :: rest) : step s = hostLoad bytes (s.setHost rest) := by
  rw [step_host h]
  rfl

theorem step_writeByte {s : State} {a : BitVec 64} {b : Byte} {rest : List HostAct}
    (h : s.host = .writeByte a b :: rest) : step s = hostWriteByte a b (s.setHost rest) := by
  rw [step_host h]
  rfl

theorem step_hold {s : State} {rest : List HostAct} (h : s.host = .hold :: rest) :
    step s = .next (s.setHost rest) := by
  rw [step_host h]
  rfl

/-- The four codes a command can have. -/
theorem cmd_cases (c : BitVec 2) : c = 0#2 ∨ c = 1#2 ∨ c = 2#2 ∨ c = 3#2 := by
  revert c
  decide

/-- If a load answers a next state, the block was not BUSY and the input is the bytes'. -/
theorem hostLoad_cases {bytes : List Byte} {s t : State} (h : hostLoad bytes s = .next t) :
    s.phase ≠ .busy ∧ bytes.length < 2 ^ 64 ∧
      t = s.setInput (Memory.ofBytes bytes) (BitVec.ofNat 64 bytes.length) := by
  unfold hostLoad at h
  split at h
  · cases h
  · split at h
    · cases h
    · exact ⟨‹_›, by omega, by simpa using h.symm⟩

/-- If a host byte write answers a next state, the block was not BUSY and the byte existed. -/
theorem hostWriteByte_cases {a : BitVec 64} {b : Byte} {s t : State}
    (h : hostWriteByte a b s = .next t) :
    s.phase ≠ .busy ∧ a.toNat < s.len.toNat ∧
      t = s.setInput (Memory.store s.inBuf a.toNat b) s.len := by
  unfold hostWriteByte at h
  split at h
  · cases h
  · split at h
    · exact ⟨‹_›, ‹_›, by simpa using h.symm⟩
    · cases h

/-- Everything a step that answers a next state can have done. `u` is the state with the host act,
if any, taken off the list. -/
theorem step_cases {s t : State} (h : step s = .next t) :
    (∃ u, (s.host = [] ∧ u = s ∨ ∃ rest, s.host = .command 0#2 :: rest ∧ u = s.setHost rest) ∧
      execPixstep u = .next t) ∨
    (∃ rest, s.host = .command 1#2 :: rest ∧ execStart (s.setHost rest) = .next t) ∨
    (∃ rest, s.host = .command 2#2 :: rest ∧ t = (s.setHost rest).resetBlock) ∨
    (∃ bytes rest, s.host = .load bytes :: rest ∧ hostLoad bytes (s.setHost rest) = .next t) ∨
    (∃ a b rest, s.host = .writeByte a b :: rest ∧ hostWriteByte a b (s.setHost rest) = .next t) ∨
    (∃ rest, s.host = .hold :: rest ∧ t = s.setHost rest) ∨
    (∃ act rest v, s.host = act :: rest ∧ (∀ c, act ≠ .command c) ∧
      t = (s.setHost rest).setResult v) := by
  cases hh : s.host with
  | nil =>
    rw [step_no_host hh] at h
    exact .inl ⟨s, .inl ⟨rfl, rfl⟩, h⟩
  | cons act rest =>
    cases act with
    | command c =>
      rcases cmd_cases c with rfl | rfl | rfl | rfl
      · rw [step_command_none hh] at h
        exact .inl ⟨_, .inr ⟨rest, rfl, rfl⟩, h⟩
      · rw [step_command_start hh] at h
        exact .inr (.inl ⟨rest, rfl, h⟩)
      · rw [step_command_reset hh] at h
        refine .inr (.inr (.inl ⟨rest, rfl, ?_⟩))
        simpa [exec, execReset] using h.symm
      · rw [step_command_reserved hh] at h
        cases h
    | load bytes =>
      rw [step_load hh] at h
      exact .inr (.inr (.inr (.inl ⟨bytes, rest, rfl, h⟩)))
    | writeByte a b =>
      rw [step_writeByte hh] at h
      exact .inr (.inr (.inr (.inr (.inl ⟨a, b, rest, rfl, h⟩))))
    | hold =>
      rw [step_hold hh] at h
      exact .inr (.inr (.inr (.inr (.inr (.inl ⟨rest, rfl, by simpa using h.symm⟩)))))
    | hdr64 x =>
      rw [step_host hh] at h
      exact .inr (.inr (.inr (.inr (.inr (.inr
        ⟨_, rest, _, rfl, by simp, (Host.Outcome.next.inj h).symm⟩)))))
    | w1 x =>
      rw [step_host hh] at h
      exact .inr (.inr (.inr (.inr (.inr (.inr
        ⟨_, rest, _, rfl, by simp, (Host.Outcome.next.inj h).symm⟩)))))
    | w8 x =>
      rw [step_host hh] at h
      exact .inr (.inr (.inr (.inr (.inr (.inr
        ⟨_, rest, _, rfl, by simp, (Host.Outcome.next.inj h).symm⟩)))))
    | idx4 x =>
      rw [step_host hh] at h
      exact .inr (.inr (.inr (.inr (.inr (.inr
        ⟨_, rest, _, rfl, by simp, (Host.Outcome.next.inj h).symm⟩)))))

/-! The invariant does not speak of the host's acts or of the result port -/

theorem State.Inv_setHost {s : State} (h : s.Inv) (acts : List HostAct) : (s.setHost acts).Inv where
  memory := h.memory
  size := h.size
  offset := h.offset
  idle hp := ⟨(h.idle hp).errCode, (h.idle hp).columns, (h.idle hp).rows, (h.idle hp).bi,
    (h.idle hp).sh, (h.idle hp).out⟩
  busy hp := ⟨(h.busy hp).errCode, (h.busy hp).header, (h.busy hp).inBounds, (h.busy hp).present,
    (h.busy hp).outPrefix⟩
  done hp := ⟨(h.done hp).errCode, (h.done hp).dims, (h.done hp).bi, (h.done hp).sh,
    (h.done hp).outLength⟩
  error hp := ⟨(h.error hp).errCode, (h.error hp).bi, (h.error hp).sh, (h.error hp).out⟩

theorem State.Inv_setResult {s : State} (h : s.Inv) (v : DatapathResult) : (s.setResult v).Inv where
  memory := h.memory
  size := h.size
  offset := h.offset
  idle hp := ⟨(h.idle hp).errCode, (h.idle hp).columns, (h.idle hp).rows, (h.idle hp).bi,
    (h.idle hp).sh, (h.idle hp).out⟩
  busy hp := ⟨(h.busy hp).errCode, (h.busy hp).header, (h.busy hp).inBounds, (h.busy hp).present,
    (h.busy hp).outPrefix⟩
  done hp := ⟨(h.done hp).errCode, (h.done hp).dims, (h.done hp).bi, (h.done hp).sh,
    (h.done hp).outLength⟩
  error hp := ⟨(h.error hp).errCode, (h.error hp).bi, (h.error hp).sh, (h.error hp).out⟩

end Sys2Proof.Machine
end

