-- ==== Sys2Proof/Tests/Slice0.lean ====
section
/-! SUPPORT. The model's own tests, values from spec/95_test_vectors.md or worked by hand from the rules named, and for every statement with hypotheses a state and operands that meet them. -/

namespace Sys2Proof.Tests

open Sys2Proof Sys2Proof.Machine

/-! ## Helpers -/

/-- Whether an outcome is a next state with a property. -/
def nextHas (o : Host.Outcome State Fault Refusal) (p : State → Bool) : Bool :=
  match o with
  | .next t => p t
  | .fault _ => false
  | .refused _ => false

/-- A reset block of policy `p` whose host has loaded `bytes`. -/
def loaded (p : DimPolicy) (bytes : List Byte) : State :=
  { State.powerUp p with inBuf := Memory.ofBytes bytes, len := BitVec.ofNat 64 bytes.length }

/-- The 1 by 1 image of program P1. -/
def imageP1 : List Byte :=
  [0x50, 0x49, 0x43, 0x00, 0x01, 0x00, 0x01, 0x00, 0xF0, 0xCC, 0xAA, 0x01]

/-- P1's image with one byte too many (as V-H14). -/
def imageP1Long : List Byte := imageP1 ++ [0x77]

/-- P1's image with one byte too few (as V-H12). -/
def imageP1Short : List Byte := imageP1.dropLast

/-- A header with a wrong fourth byte (V-H5). -/
def imageBadMagic : List Byte :=
  [0x50, 0x49, 0x43, 0x20, 0x01, 0x00, 0x01, 0x00, 0xFF, 0xFF, 0xFF, 0xFF]

/-- A header of zero columns (V-H8). -/
def imageNoColumns : List Byte :=
  [0x50, 0x49, 0x43, 0x00, 0x00, 0x00, 0x01, 0x00, 0x00, 0x00, 0x00, 0x00]

/-- P1's transaction after `k < 8` pixels. -/
def busyP1 (k : Nat) : State :=
  { loaded .positive imageP1 with
    phase := .busy, columns := 1, rows := 1, n := 1, sh := BitVec.ofNat 3 (7 - k)
    out := pixels (Memory.ofBytes imageP1) 1 k }

/-- P1's transaction completed. -/
def doneP1 : State :=
  { loaded .positive imageP1 with
    phase := .done, columns := 1, rows := 1, n := 1, bi := 1
    out := pixels (Memory.ofBytes imageP1) 1 8 }

/-- The state P4 reaches after its bad START. -/
def errorP4 : State :=
  { loaded .positive imageBadMagic with
    phase := .error, errCode := .badMagic, columns := 1, rows := 1, n := 1 }

/-! ## Well-formedness: the ill-formed term of each check is refused -/

theorem test_wf_reserved_command : (HostAct.command 0b11#2).wf = false := by decide
theorem test_wf_load_too_long (n : Nat) (h : n = 2 ^ 64) :
    (HostAct.load (List.replicate n 0)).wf = false := by
  simp only [HostAct.wf, List.length_replicate]
  rw [h]
  decide
theorem test_wf_instr_every_value : (Instr.hdrcheck 0xFFFFFFFFFFFFFFFF).wf = true := by decide

/-! ## Decoding: words written out from R35 and R40 -/

theorem test_decode_start : decode (.hostCmd 0b01#2) = .ok .start := by rfl
theorem test_decode_reset : decode (.hostCmd 0b10#2) = .ok .reset := by rfl
theorem test_decode_reserved : decode (.hostCmd 0b11#2) = .error .reservedCommand := by rfl
theorem test_decode_pixstep : decode (.phase2 0b01#2) = .ok .pixstep := by rfl
theorem test_decode_hdrcheck :
    decode (.hdr64 0x504943002800C800#64) = .ok (.hdrcheck 0x504943002800C800#64) := by rfl
/-- Intensity 08, red 04, green 02, blue 01, shift 3: `00001000 00000100 00000010 00000001 011`. -/
theorem test_decode_unpack1 : decode (.w1 0b00001000000001000000001000000001011#35) =
    .ok (.unpack1 0x08 0x04 0x02 0x01 3) := by rfl
/-- V-W1's bytes: intensity 01, red AA, green CC, blue F0. -/
theorem test_decode_unpack8 :
    decode (.w8 0x01AACCF0#32) = .ok (.unpack8 0x01 0xAA 0xCC 0xF0) := by rfl
theorem test_decode_palmap : decode (.idx4 0b0100#4) = .ok (.palmap 4) := by rfl
theorem test_table_words :
    [decodeTableWord 8 1, decodeTableWord 8 2, decodeTableWord 8 3,
      decodeTableWord 64 0x5049430000000000, decodeTableWord 40 7, decodeTableWord 32 1,
      decodeTableWord 4 1] =
    [some .start, some .reset, none, some (.hdrcheck 0x5049430000000000),
      some (.unpack1 0 0 0 0 7), some (.unpack8 0 0 0 1), some (.palmap 1)] := by decide

/-! ## One step each -/

/-- V-S1 with P1's bytes. -/
theorem test_start_accepts : nextHas (exec .start (loaded .positive imageP1))
    (fun t => t.phase == .busy && t.n == 1 && t.sh == 7) = true := by decide
/-- V-S6: from DONE, a bad magic; the old output is discarded. -/
theorem test_start_bad_magic_from_done :
    nextHas (exec .start { doneP1 with inBuf := Memory.ofBytes imageBadMagic })
      (fun t => t.errCode == .badMagic && t.out == [] && t.columns == 1) = true := by decide
/-- V-S10's RESET, in BUSY. -/
theorem test_reset_in_busy : nextHas (exec .reset (busyP1 5))
    (fun t => t.phase == .idle && t.sh == 7 && t.out == [] && t.n == 0) = true := by decide
/-- P1's first pixel: index 7, (AA,AA,AA). -/
theorem test_pixstep_first : nextHas (exec .pixstep (busyP1 0))
    (fun t => t.sh == 6 && t.out == [⟨0xAA, 0xAA, 0xAA⟩]) = true := by decide
/-- P1's last pixel: index 8, (55,55,55), and DONE as in V-S4. -/
theorem test_pixstep_last : nextHas (exec .pixstep (busyP1 7))
    (fun t => t.phase == .done && t.bi == 1 && t.out.getLast? == some ⟨0x55, 0x55, 0x55⟩) = true := by
  decide
/-- V-H19: the largest dimensions, `n` exact, length compared in 64 bits. -/
theorem test_hdrcheck_largest : hdrCheck .positive 0x50494300FFFFFFFF#64 8 =
    ⟨false, .truncatedInput, 8, 65535, 65535, 0xFFFE0001⟩ := by decide
/-- V-H15: `04 01` is 260. -/
theorem test_hdrcheck_little_endian : hdrCheck .positive 0x5049430004010100#64 8 =
    ⟨false, .truncatedInput, 8, 260, 1, 260⟩ := by decide
/-- V-U3 at shift 2. -/
theorem test_unpack1_red_only : unpack1 0x01 0x02 0x04 0x08 2 = 4 := by decide
/-- V-U7: the leftmost pixel's intensity. -/
theorem test_unpack1_intensity : unpack1 0x00 0x00 0x00 0x80 7 = 8 := by decide
/-- V-W1. -/
theorem test_unpack8_lanes : unpack8 0xF0 0xCC 0xAA 0x01 = #v[7, 3, 5, 1, 6, 2, 4, 8] := by decide
/-- V-P6: index 6 is not brown. -/
theorem test_palmap_six : nextHas (exec (.palmap 6) State.reset)
    (fun t => t.result == .triplet ⟨0xAA, 0xAA, 0x00⟩) = true := by decide
/-- V-P12 from the ROM, as 24 bits. -/
theorem test_palmap_twelve : packTriplet (PalRom.rom.read 12) = 0xFF5555#24 := by decide
/-- The first output bytes of P1: R, G, B of each triplet. -/
theorem test_out_bytes :
    outBytes [⟨0xAA, 0xAA, 0xAA⟩, ⟨0x00, 0xAA, 0xAA⟩] = [0xAA, 0xAA, 0xAA, 0x00, 0xAA, 0xAA] := by
  decide
/-- STATUS after BAD_MAGIC (95_test_vectors.md, sequencer steps). -/
theorem test_status_bad_magic : errorP4.status = 0x7#32 := by decide

/-! ## The hypotheses of the statements can be met: consistent states -/

theorem test_busy_first_consistent : (busyP1 0).Inv where
  memory := by decide
  size := by decide
  offset := fun _ => rfl
  idle := by simp [busyP1]
  busy := fun _ => ⟨rfl, by decide, by decide, by unfold State.InputPresent; decide, by decide⟩
  done := by simp [busyP1]
  error := by simp [busyP1]

theorem test_busy_last_consistent : (busyP1 7).Inv where
  memory := by decide
  size := by decide
  offset := fun _ => rfl
  idle := by simp [busyP1]
  busy := fun _ => ⟨rfl, by decide, by decide, by unfold State.InputPresent; decide, by decide⟩
  done := by simp [busyP1]
  error := by simp [busyP1]

theorem test_done_consistent : doneP1.Inv where
  memory := by decide
  size := by decide
  offset := fun _ => rfl
  idle := by simp [doneP1]
  busy := by simp [doneP1]
  done := fun _ => ⟨rfl, by decide, rfl, rfl, by decide⟩
  error := by simp [doneP1]

theorem test_error_consistent : errorP4.Inv where
  memory := by decide
  size := by decide
  offset := fun _ => rfl
  idle := by simp [errorP4]
  busy := by simp [errorP4]
  done := by simp [errorP4]
  error := fun _ => ⟨by decide, rfl, rfl, rfl⟩

/-! ## The hypotheses of the statements can be met: one witness per statement and clause -/

theorem test_witness_DecodeEncodeRoundTrip :
    (Instr.unpack1 0xFF 0x00 0xFF 0x80 7).wf = true ∧ decode (.w8 0xFFFFFFFF#32) =
      .ok (.unpack8 0xFF 0xFF 0xFF 0xFF) := ⟨by decide, by rfl⟩

theorem test_witness_StepRunsDecodedInstruction :
    (hostActOf (.idx4 15) = some (.idx4 15) ∧ decode (.idx4 15) = .ok (.palmap 15)) ∧
    (hostActOf (.hostCmd 0b10#2) = some (.command 0b10#2) ∧
      decode (.hostCmd 0b10#2) = .ok .reset) ∧
    ((busyP1 0).host = [] ∧ decode (.phase2 (phaseCode (busyP1 0).phase)) = .ok .pixstep) ∧
    (((busyP1 7).setHost [.command 0b00#2]).host = .command 0b00#2 :: [] ∧
      decode (.phase2 (phaseCode ((busyP1 7).setHost [.command 0b00#2]).phase)) = .ok .pixstep) :=
  ⟨⟨rfl, rfl⟩, ⟨rfl, rfl⟩, ⟨rfl, rfl⟩, ⟨rfl, rfl⟩⟩

theorem test_witness_PlacedTableWordRunsNext :
    decodeTableWord 8 1 = some .start ∧ decodeTableWord 8 2 = some .reset ∧
      decodeTableWord 8 15 = some (.palmap 15) ∧
      decodeTableWord 35 0x7FFFFFFFF = some (.unpack1 0xFF 0xFF 0xFF 0xFF 7) := by decide

theorem test_witness_NoCommandAndReservedCommand :
    (State.reset.phase ≠ .busy ∧ State.reset.host = []) ∧
    ((doneP1.setHost [.command 0b00#2]).phase ≠ .busy ∧
      (doneP1.setHost [.command 0b00#2]).host = .command 0b00#2 :: []) ∧
    ((busyP1 0).setHost [.command 0b11#2]).host = .command 0b11#2 :: [] := by decide

theorem test_witness_HoldOnlyDelays :
    ((busyP1 7).setHost [.hold]).host = .hold :: [] := by decide

theorem test_witness_MemReadIsLittleEndianSum :
    11 + 1 ≤ (loaded .positive imageP1).len.toNat ∧
    8 ≤ (loaded .positive (imageP1.take 8)).len.toNat := by decide

theorem test_witness_HeaderFieldsAssembled :
    8 ≤ (loaded .positive (imageP1.take 8)).len.toNat := by decide

/-- With 11 bytes the intensity plane's byte is missing (`k = 3`), with 8 the blue plane's (`k = 0`). -/
theorem test_witness_PixstepReadPastEndFaults :
    let s := { busyP1 0 with len := 11 }
    let u := { busyP1 0 with len := 8 }
    (s.phase = .busy ∧ 3 < 4 ∧ (∀ j, j < 3 → 8 + j * s.n.toNat + s.bi.toNat < s.len.toNat) ∧
      s.len.toNat ≤ 8 + 3 * s.n.toNat + s.bi.toNat) ∧
    (u.phase = .busy ∧ 0 < 4 ∧ (∀ j, j < 0 → 8 + j * u.n.toNat + u.bi.toNat < u.len.toNat) ∧
      u.len.toNat ≤ 8 + 0 * u.n.toNat + u.bi.toNat) := by decide

/-- V-H3, V-H7, V-H9, V-H12 and V-H13, one per clause, each at its boundary length. -/
theorem test_witness_HdrcheckFollowsItsPriority :
    (7#64).toNat < 8 ∧
    (8 ≤ (8#64).toNat ∧ (0x0000000001000100#64).toNat / 2 ^ 32 ≠ 0x50494300) ∧
    ((0x5049430001000000#64).toNat / 2 ^ 32 = 0x50494300 ∧ ¬ DimsAccepted .positive 1 0) ∧
    (¬ DimsAccepted .strict40x200 1 1 ∧ DimsAccepted .strict40x200 40 200) ∧
    ((0x5049430001000100#64).toNat / 2 ^ 32 = 0x50494300 ∧ DimsAccepted .positive 1 1 ∧
      (11#64).toNat < 8 + 4 * (1 * 1) ∧ 8 + 4 * (1 * 1) ≤ (12#64).toNat) := by
  simp [DimsAccepted]

theorem test_witness_HdrcheckSuccessMeansWholeInput :
    (hdrCheck .positive 0x5049430001000100#64 12).ok = true := by decide

theorem test_witness_StartFollowsHeaderCheck :
    State.reset.phase ≠ .busy ∧ doneP1.phase ≠ .busy ∧ errorP4.phase ≠ .busy := by decide

theorem test_witness_StartAcceptsCompleteInput :
    let s := loaded .positive imageP1
    s.phase ≠ .busy ∧ s.MagicPresent ∧ DimsAccepted s.cfg.dimPolicy s.fileColumns s.fileRows ∧
      8 + 4 * (s.fileColumns * s.fileRows) = s.len.toNat :=
  ⟨by decide, ⟨by decide, by decide, by decide, by decide⟩, ⟨by decide, by decide⟩, by decide⟩

theorem test_witness_StartRecordsFormatErrors_short :
    (loaded .positive (imageP1.take 7)).phase ≠ .busy ∧
      (loaded .positive (imageP1.take 7)).len.toNat < 8 := by decide

theorem test_witness_StartRecordsFormatErrors_magic :
    let s := loaded .positive (imageBadMagic.take 8)
    s.phase ≠ .busy ∧ 8 ≤ s.len.toNat ∧ ¬ s.MagicPresent :=
  ⟨by decide, by decide, fun h => absurd h.2.2.2 (by decide)⟩

theorem test_witness_StartRecordsFormatErrors_dimensions :
    let s := loaded .positive imageNoColumns
    let u := loaded .strict40x200 imageP1
    (s.phase ≠ .busy ∧ 8 ≤ s.len.toNat ∧ s.MagicPresent ∧
      ¬ DimsAccepted s.cfg.dimPolicy s.fileColumns s.fileRows) ∧
    (u.phase ≠ .busy ∧ 8 ≤ u.len.toNat ∧ u.MagicPresent ∧
      ¬ DimsAccepted u.cfg.dimPolicy u.fileColumns u.fileRows) :=
  ⟨⟨by decide, by decide, ⟨by decide, by decide, by decide, by decide⟩,
      fun h => absurd h.1 (by decide)⟩,
    ⟨by decide, by decide, ⟨by decide, by decide, by decide, by decide⟩,
      fun h => absurd h.1 (by decide)⟩⟩

theorem test_witness_StartRecordsFormatErrors_planes :
    let s := loaded .positive imageP1Short
    s.phase ≠ .busy ∧ 8 ≤ s.len.toNat ∧ s.MagicPresent ∧
      DimsAccepted s.cfg.dimPolicy s.fileColumns s.fileRows ∧
      s.len.toNat + 1 = 8 + 4 * (s.fileColumns * s.fileRows) :=
  ⟨by decide, by decide, ⟨by decide, by decide, by decide, by decide⟩, ⟨by decide, by decide⟩,
    by decide⟩

theorem test_witness_StartInBusyRefused : (busyP1 0).phase = .busy := by decide

theorem test_witness_PixstepEmitsPixelAtCursor :
    ((busyP1 0).phase = .busy ∧ (busyP1 0).bi.toNat < (busyP1 0).n.toNat ∧
      8 + 4 * (busyP1 0).n.toNat ≤ (busyP1 0).len.toNat) ∧
    ((busyP1 7).phase = .busy ∧ (busyP1 7).bi.toNat < (busyP1 7).n.toNat ∧ (busyP1 7).sh = 0 ∧
      8 + 4 * (busyP1 7).n.toNat ≤ (busyP1 7).len.toNat) := by decide

theorem test_witness_CursorAdvancesPixelByPixel :
    ((busyP1 0).Inv ∧ (busyP1 0).phase = .busy ∧ 0 < (busyP1 0).sh.toNat) ∧
    ((busyP1 7).Inv ∧ (busyP1 7).phase = .busy ∧ (busyP1 7).sh.toNat = 0 ∧
      (busyP1 7).bi.toNat + 1 = (busyP1 7).n.toNat) :=
  ⟨⟨test_busy_first_consistent, by decide, by decide⟩,
    ⟨test_busy_last_consistent, by decide, by decide, by decide⟩⟩

theorem test_witness_LastPixelCompletesTheImage :
    (busyP1 7).Inv ∧ (busyP1 7).phase = .busy ∧ (busyP1 7).bi.toNat = (busyP1 7).n.toNat - 1 ∧
      (busyP1 7).sh = 0 := ⟨test_busy_last_consistent, by decide, by decide, by decide⟩

theorem test_witness_PixstepOutsideBusyChangesNothing :
    State.reset.phase ≠ .busy ∧ doneP1.phase ≠ .busy := by decide

theorem test_witness_EightPixstepsEmitUnpackEightLanes :
    (busyP1 0).phase = .busy ∧ (busyP1 0).bi.toNat < (busyP1 0).n.toNat ∧
      8 + 4 * (busyP1 0).n.toNat ≤ (busyP1 0).len.toNat ∧ (busyP1 0).sh = 7 := by decide

theorem test_witness_ErrorCodeExactlyInError :
    errorP4.Inv ∧ errorP4.errCode ≠ .truncatedInput := ⟨test_error_consistent, by decide⟩

theorem test_witness_OperationsNeverWriteInput :
    nextHas (exec .pixstep (busyP1 0)) (fun _ => true) = true ∧
      nextHas (exec .start (loaded .positive imageP1)) (fun _ => true) = true := by decide

theorem test_witness_ParameterAndPaletteNeverChange :
    nextHas (step (busyP1 7)) (fun _ => true) = true := by decide

theorem test_witness_OutGrowsOneTripletAtATime :
    nextHas (step (busyP1 0)) (fun t => t.out.length == 1) = true ∧
      nextHas (step (doneP1.setHost [.command 0b01#2])) (fun t => t.out.length == 0) = true := by
  decide

theorem test_witness_StepKeepsConsistency :
    (busyP1 7).Inv ∧ nextHas (step (busyP1 7)) (fun _ => true) = true :=
  ⟨test_busy_last_consistent, by decide⟩

/-- The byte the host writes is the last that exists. -/
theorem test_witness_ConsistentStepNeverFaults :
    (doneP1.setHost [.writeByte 11 0]).Inv ∧
      ∀ (a : BitVec 64) (b : Byte) (rest : List HostAct),
        (doneP1.setHost [.writeByte 11 0]).host = .writeByte a b :: rest →
          a.toNat < (doneP1.setHost [.writeByte 11 0]).len.toNat := by
  refine ⟨State.Inv_setHost test_done_consistent _, ?_⟩
  · intro a b rest h
    simp only [State.setHost, List.cons.injEq, HostAct.writeByte.injEq] at h
    rw [← h.1.1]
    decide

theorem test_witness_NoErrorAfterStart :
    ((busyP1 0).Inv ∧ (busyP1 0).phase = .busy) ∧
      nextHas (step (busyP1 0)) (fun _ => true) = true :=
  ⟨⟨test_busy_first_consistent, by decide⟩, by decide⟩

theorem test_witness_OnlyTheseEventsChangePhase :
    nextHas (step (busyP1 7)) (fun t => t.phase != (busyP1 7).phase) = true ∧
      nextHas (step ((busyP1 0).setHost [.command 0b10#2])) (fun t => t.phase == .idle) = true ∧
      nextHas (step ((loaded .positive imageP1).setHost [.command 0b01#2]))
        (fun t => t.phase == .busy) = true := by decide

theorem test_witness_QuiescentPhasesHold :
    (errorP4.setHost [.hold]).phase ≠ .busy ∧
      (∀ rest, (errorP4.setHost [.hold]).host ≠ .command 0b01#2 :: rest ∧
        (errorP4.setHost [.hold]).host ≠ .command 0b10#2 :: rest) ∧
      nextHas (step (errorP4.setHost [.hold])) (fun _ => true) = true :=
  ⟨by decide, fun _ => ⟨by simp [State.setHost], by simp [State.setHost]⟩, by decide⟩

theorem test_witness_InputFixedDuringTransaction :
    nextHas (step (busyP1 0)) (fun _ => true) = true ∧
      ((busyP1 0).setHost [.load imageP1]).phase = .busy ∧
      ((busyP1 0).setHost [.load imageP1]).host = .load imageP1 :: [] ∧
      ((busyP1 0).setHost [.writeByte 11 0]).host = .writeByte 11 0 :: [] := by decide

theorem test_witness_LoadPlacesTheInput :
    (State.reset.setHost [.load imageP1]).phase ≠ .busy ∧ imageP1.length < 2 ^ 64 ∧
      (State.reset.setHost [.load imageP1]).host = .load imageP1 :: [] ∧
      11 < imageP1.length ∧ imageP1.length ≤ 12 := by decide

theorem test_witness_HostByteWriteChangesOneByte :
    (doneP1.setHost [.writeByte 11 0]).phase ≠ .busy ∧
      Memory.wf (doneP1.setHost [.writeByte 11 0]).inBuf
        (doneP1.setHost [.writeByte 11 0]).len.toNat = true ∧
      (doneP1.setHost [.writeByte 11 0]).host = .writeByte 11 0 :: [] ∧
      (11#64).toNat < doneP1.len.toNat ∧ doneP1.len.toNat ≤ (12#64).toNat := by decide

theorem test_witness_FlatIndexConvertsBothWays : 0 ≤ 7 ∧ 7 ≤ 7 := by decide

/-- The last pixel of the 40 by 200 picture (95_test_vectors.md, flat index table). -/
theorem test_witness_RasterPositionIsRowMajor :
    0 ≤ 7 ∧ 7999 < 40 * 200 ∧ rasterRow 40 7999 = 199 ∧ rasterColumn 40 7999 0 = 319 := by decide

theorem test_witness_DecodedImageHasEveryPixelOnce :
    decodeRef .positive (Memory.ofBytes imageP1) 12 = .ok (pixels (Memory.ofBytes imageP1) 1 8) := by
  rfl

/-- Bytes 08 and F8 agree in bit 3, the bit of pixel 4. -/
theorem test_witness_PixelDependsOnItsFourBits :
    ∀ k, k < 4 →
      (Memory.lookup [(8, 0x08#8)] (8 + k * 1 + byteIndexOf 4)).getLsbD (shiftOf 4) =
        (Memory.lookup [(8, 0xF8#8)] (8 + k * 1 + byteIndexOf 4)).getLsbD (shiftOf 4) := by decide

theorem test_witness_OutIsPrefixUntilDone :
    ((busyP1 7).Inv ∧ (busyP1 7).phase = .busy) ∧ errorP4.Inv ∧ errorP4.phase = .error :=
  ⟨⟨test_busy_last_consistent, by decide⟩, test_error_consistent, by decide⟩

theorem test_witness_StartThenPixstepsRefineDecode :
    (loaded .positive imageP1).phase ≠ .busy ∧
      decodeRef .positive (loaded .positive imageP1).inBuf (loaded .positive imageP1).len =
        .ok (pixels (Memory.ofBytes imageP1) 1 8) ∧
      decodeRef .positive (loaded .positive imageBadMagic).inBuf
        (loaded .positive imageBadMagic).len = .error (.badMagic, 0) :=
  ⟨by decide, by rfl, by rfl⟩

theorem test_witness_HeldTransactionStillFinishes :
    let s := (busyP1 0).setHost [.hold, .hold]
    s.Inv ∧ s.phase = .busy ∧ s.host = List.replicate 2 .hold ∧ s.pixelsLeft = 8 :=
  ⟨State.Inv_setHost test_busy_first_consistent _, by decide, by decide, by decide⟩

theorem test_witness_TrailingBytesChangeNothing :
    let s1 := loaded .positive imageP1
    let s2 := loaded .positive imageP1Long
    s1.phase ≠ .busy ∧ s2.phase ≠ .busy ∧ s1.cfg = s2.cfg ∧ s1.MagicPresent ∧
      DimsAccepted s1.cfg.dimPolicy s1.fileColumns s1.fileRows ∧
      8 + 4 * (s1.fileColumns * s1.fileRows) ≤ s1.len.toNat ∧
      8 + 4 * (s1.fileColumns * s1.fileRows) ≤ s2.len.toNat ∧
      (∀ a, a < 8 + 4 * (s1.fileColumns * s1.fileRows) → s1.byteAt a = s2.byteAt a) ∧
      8 ≤ 8 * (s1.fileColumns * s1.fileRows) :=
  ⟨by decide, by decide, by decide, ⟨by decide, by decide, by decide, by decide⟩,
    ⟨by decide, by decide⟩, by decide, by decide, by decide, by decide⟩

theorem test_witness_DecodeLineGivesReferenceResult :
    State.reset.phase ≠ .busy ∧ State.reset.host = [] ∧ imageP1.length < 2 ^ 64 ∧
      imageBadMagic.length < 2 ^ 64 := by decide

end Sys2Proof.Tests
end

section
/-! The parameter DIM_POLICY and the palette across every step (R4, R60). -/

namespace Sys2Proof.Machine

theorem execPixstep_keeps_cfg {s t : State} (h : execPixstep s = .next t) : t.cfg = s.cfg := by
  obtain ⟨-, rfl⟩ | ⟨-, rfl⟩ := execPixstep_cases h
  · simp
  · rfl

theorem execStart_keeps_cfg {s t : State} (h : execStart s = .next t) : t.cfg = s.cfg := by
  obtain ⟨-, rfl⟩ := execStart_cases h
  simp

theorem hostLoad_keeps_cfg {bytes : List Byte} {s t : State} (h : hostLoad bytes s = .next t) :
    t.cfg = s.cfg := by
  obtain ⟨-, -, rfl⟩ := hostLoad_cases h
  simp

theorem hostWriteByte_keeps_cfg {a : BitVec 64} {b : Byte} {s t : State}
    (h : hostWriteByte a b s = .next t) : t.cfg = s.cfg := by
  obtain ⟨-, -, rfl⟩ := hostWriteByte_cases h
  simp

/-- DIM_POLICY is configuration: no step, of the block or of the host, writes it (R4). -/
theorem step_keeps_cfg {s t : State} (h : step s = .next t) : t.cfg = s.cfg := by
  obtain ⟨u, hu, hpix⟩ | ⟨rest, -, hstart⟩ | ⟨rest, -, rfl⟩ | ⟨bytes, rest, -, hload⟩ |
    ⟨a, b, rest, -, hwrite⟩ | ⟨rest, -, rfl⟩ | ⟨act, rest, v, -, -, rfl⟩ := step_cases h
  · have hcfg : u.cfg = s.cfg := by
      obtain ⟨-, rfl⟩ | ⟨rest, -, rfl⟩ := hu
      · rfl
      · simp
    exact (execPixstep_keeps_cfg hpix).trans hcfg
  · simpa using execStart_keeps_cfg hstart
  · simp
  · simpa using hostLoad_keeps_cfg hload
  · simpa using hostWriteByte_keeps_cfg hwrite
  · simp
  · simp

/-- Settles O33: the parameter by the cases of a step, the palette by the proof its field carries
(R60). -/
theorem parameterAndPaletteNeverChange : Obligations.ParameterAndPaletteNeverChange :=
  fun _ t h => ⟨step_keeps_cfg h, t.palRom.fixed⟩

end Sys2Proof.Machine
end

section
/-! START, PIXSTEP, RESET and every act of the host keep the block's invariant (R9 to R17, R65,
R89). -/

namespace Sys2Proof.Machine

/-- An accepted header in full: its record is determined by the fields it holds (R48, R49). -/
theorem headerOf_eq_of_ok {p : DimPolicy} {m : List Host.Cell} {l : BitVec 64}
    (hok : (headerOf p m l).ok = true) :
    headerOf p m l =
      { ok := true, code := .none, offset := 0, c := (headerOf p m l).c, r := (headerOf p m l).r
        n := (headerOf p m l).n } := by
  obtain ⟨-, -, -, -, heq⟩ := hdrCheck_ok hok
  simp [headerOf, heq]

/-- Accepted dimensions are ones the policy allows (R46, R48). -/
theorem headerOf_dimOk {p : DimPolicy} {m : List Host.Cell} {l : BitVec 64}
    (hok : (headerOf p m l).ok = true) : dimOk p (headerOf p m l).c (headerOf p m l).r = true := by
  obtain ⟨-, -, hdim, -, heq⟩ := hdrCheck_ok hok
  simpa [headerOf, heq] using hdim

/-- An accepted header's whole input is present (R25, R49). -/
theorem headerOf_present {p : DimPolicy} {m : List Host.Cell} {l : BitVec 64}
    (hok : (headerOf p m l).ok = true) : requiredLength (headerOf p m l).n ≤ l.toNat := by
  obtain ⟨-, -, -, hlen, heq⟩ := hdrCheck_ok hok
  simpa [headerOf, heq] using hlen

/-- An accepted picture has at least one byte in each plane, so the first cursor is inside it. -/
theorem headerOf_n_pos {p : DimPolicy} {m : List Host.Cell} {l : BitVec 64}
    (hok : (headerOf p m l).ok = true) : 0 < (headerOf p m l).n.toNat := by
  obtain ⟨hc, hr⟩ := dimOk_pos (headerOf_dimOk hok)
  have hsize := hdrCheck_size p (headerWordOf m) l
  rw [← headerOf] at hsize
  rw [hsize]
  exact Nat.mul_pos hc hr

/-! START -/

theorem State.beginTransaction_of_ok {s : State} {h : HdrResult} (hok : h.ok = true) :
    s.beginTransaction h = (s.loadHeader h).enterBusy := if_pos hok

theorem State.beginTransaction_of_failed {s : State} {h : HdrResult} (hok : h.ok = false) :
    s.beginTransaction h = (s.loadHeader h).raiseFormatError h.code h.offset :=
  if_neg (by simp [hok])

/-- An accepted START leaves the cursor at the first pixel of the input it checked, nothing out. -/
theorem State.BusyOk_of_accepted {s : State}
    (hok : (headerOf s.cfg.dimPolicy s.inBuf s.len).ok = true) :
    (s.loadHeader (headerOf s.cfg.dimPolicy s.inBuf s.len)).enterBusy.BusyOk where
  errCode := rfl
  header := headerOf_eq_of_ok hok
  inBounds := headerOf_n_pos hok
  present := headerOf_present hok
  outPrefix := rfl

/-- START keeps the invariant, whether it accepts the input or raises the error (R62, R76). -/
theorem execStart_preserves_Inv {s t : State} (hs : s.Inv) (h : execStart s = .next t) : t.Inv := by
  obtain ⟨-, rfl⟩ := execStart_cases h
  have hsize := hdrCheck_size s.cfg.dimPolicy (headerWordOf s.inBuf) s.len
  cases hok : (headerOf s.cfg.dimPolicy s.inBuf s.len).ok with
  | true =>
    rw [State.beginTransaction_of_ok hok]
    exact
      { memory := hs.memory
        size := hsize
        offset := fun _ => rfl
        idle := by simp
        busy := fun _ => State.BusyOk_of_accepted hok
        done := by simp
        error := by simp }
  | false =>
    obtain ⟨hcode, hoffset⟩ := hdrCheck_failed hok
    rw [State.beginTransaction_of_failed hok]
    exact
      { memory := hs.memory
        size := hsize
        offset := hoffset
        idle := by simp
        busy := by simp
        done := by simp
        error := fun _ => ⟨hcode, rfl, rfl, rfl⟩ }

/-! PIXSTEP -/

/-- `s` after PIXSTEP in BUSY: the pixel at the cursor is out and the cursor is past it (R64,
R65). -/
def State.afterPixel (s : State) : State :=
  (s.outAppend (pixel s.inBuf s.n.toNat s.cursor)).advance

/-- The cursor stands at the last pixel of the picture (R66). -/
def State.AtLastPixel (s : State) : Prop := s.sh.toNat = 0 ∧ s.bi + 1 = s.n

theorem State.afterPixel_eq (s : State) :
    s.afterPixel = s.advance.outAppend (pixel s.inBuf s.n.toNat s.cursor) := rfl

/-- If `OUT` was the image up to the cursor, it still is (R65, R89). -/
theorem State.afterPixel_out {s : State} (h : s.BusyOk) :
    s.afterPixel.out = pixels s.inBuf s.n.toNat s.afterPixel.cursor := by
  have hcursor : s.afterPixel.cursor = s.cursor + 1 := State.advance_cursor h.inBounds
  rw [hcursor, pixels_succ, ← h.outPrefix]
  rfl

theorem State.advance_phase_of_last {s : State} (h : s.AtLastPixel) : s.advance.phase = .done :=
  if_pos h

theorem State.advance_phase_of_not_last {s : State} (h : ¬ s.AtLastPixel) :
    s.advance.phase = s.phase := if_neg h

/-- Before the last pixel the cursor advances to a byte-index still inside the planes (R65). -/
theorem State.advance_bi_lt {s : State} (hi : s.bi.toNat < s.n.toNat) (h : ¬ s.AtLastPixel) :
    s.advance.bi.toNat < s.n.toNat := by
  rw [State.advance_bi]
  split
  · exact hi
  · next hsh =>
    have hne : s.bi.toNat + 1 ≠ s.n.toNat := fun heq => h ⟨by omega, (bi_succ_eq hi).2 heq⟩
    rw [bi_succ hi]
    omega

/-- A pixel that is not the last leaves the transaction running in order. -/
theorem State.BusyOk_afterPixel {s : State} (h : s.BusyOk) (hl : ¬ s.AtLastPixel) :
    s.afterPixel.BusyOk where
  errCode := h.errCode
  header := h.header
  inBounds := State.advance_bi_lt h.inBounds hl
  present := h.present
  outPrefix := State.afterPixel_out h

/-- The last pixel completes the image: `BI` reaches `N` and `8 * N` triplets are out (R66). -/
theorem State.DoneOk_afterPixel {s : State} (h : s.BusyOk) (hl : s.AtLastPixel) :
    s.afterPixel.DoneOk := by
  obtain ⟨hsh, hbi⟩ := hl
  have hcount : s.cursor + 1 = 8 * s.n.toNat := by
    have := (bi_succ_eq h.inBounds).1 hbi
    simp only [State.cursor, flatIndex, hsh]
    omega
  have hok : (headerOf s.cfg.dimPolicy s.inBuf s.len).ok = true := by rw [h.header]
  have hdims := headerOf_dimOk hok
  rw [h.header] at hdims
  have hlast := State.advance_last hsh hbi
  exact
    { errCode := h.errCode
      dims := hdims
      bi := by rw [State.afterPixel_eq, hlast]; exact hbi
      sh := by rw [State.afterPixel_eq, hlast]; rfl
      outLength := by
        rw [State.afterPixel_eq, State.outAppend_out, State.advance_out, h.outPrefix, ← pixels_succ,
          pixels_length]
        exact hcount }

/-- The pixel at the cursor, the last one or not, keeps the invariant. -/
theorem State.Inv_afterPixel {s : State} (hs : s.Inv) (hb : s.phase = .busy) :
    s.afterPixel.Inv := by
  by_cases hl : s.AtLastPixel
  · have hphase : s.afterPixel.phase = .done := State.advance_phase_of_last hl
    exact
      { memory := hs.memory
        size := hs.size
        offset := hs.offset
        idle := by simp [hphase]
        busy := by simp [hphase]
        done := fun _ => State.DoneOk_afterPixel (hs.busy hb) hl
        error := by simp [hphase] }
  · have hphase : s.afterPixel.phase = .busy := (State.advance_phase_of_not_last hl).trans hb
    exact
      { memory := hs.memory
        size := hs.size
        offset := hs.offset
        idle := by simp [hphase]
        busy := fun _ => State.BusyOk_afterPixel (hs.busy hb) hl
        done := by simp [hphase]
        error := by simp [hphase] }

theorem execPixstep_preserves_Inv {s t : State} (hs : s.Inv) (h : execPixstep s = .next t) :
    t.Inv := by
  obtain ⟨hb, rfl⟩ | ⟨-, rfl⟩ := execPixstep_cases h
  · exact State.Inv_afterPixel hs hb
  · exact hs

/-! RESET and the host's acts on the input -/

/-- RESET keeps the input and puts everything else at what IDLE promises (R84, R85). -/
theorem State.Inv_resetBlock {s : State} (hs : s.Inv) : s.resetBlock.Inv where
  memory := hs.memory
  size := rfl
  offset := fun _ => rfl
  idle := fun _ => ⟨rfl, rfl, rfl, rfl, rfl, rfl⟩
  busy := by simp
  done := by simp
  error := by simp

/-- Only BUSY promises anything of the input, so elsewhere any buffer in canonical form will do. -/
theorem State.Inv_setInput {s : State} (hs : s.Inv) (hq : s.phase ≠ .busy) {m : List Host.Cell}
    {l : BitVec 64} (hm : Memory.wf m l.toNat = true) : (s.setInput m l).Inv where
  memory := hm
  size := hs.size
  offset := hs.offset
  idle hp := by
    obtain ⟨herr, hcol, hrow, hbi, hsh, hout⟩ := hs.idle hp
    exact ⟨herr, hcol, hrow, hbi, hsh, hout⟩
  busy hp := absurd hp hq
  done hp := by
    obtain ⟨herr, hdims, hbi, hsh, hlen⟩ := hs.done hp
    exact ⟨herr, hdims, hbi, hsh, hlen⟩
  error hp := by
    obtain ⟨herr, hbi, hsh, hout⟩ := hs.error hp
    exact ⟨herr, hbi, hsh, hout⟩

theorem hostLoad_preserves_Inv {bytes : List Byte} {s t : State} (hs : s.Inv)
    (h : hostLoad bytes s = .next t) : t.Inv := by
  obtain ⟨hq, hlen, rfl⟩ := hostLoad_cases h
  refine State.Inv_setInput hs hq ?_
  rw [BitVec.toNat_ofNat, Nat.mod_eq_of_lt hlen]
  exact Memory.wf_ofBytes bytes

theorem hostWriteByte_preserves_Inv {a : BitVec 64} {b : Byte} {s t : State} (hs : s.Inv)
    (h : hostWriteByte a b s = .next t) : t.Inv := by
  obtain ⟨hq, ha, rfl⟩ := hostWriteByte_cases h
  exact State.Inv_setInput hs hq (Memory.wf_store hs.memory ha b)

/-- Settles O36: one case per thing a step can do. -/
theorem stepKeepsConsistency : Obligations.StepKeepsConsistency := by
  intro s t hs h
  obtain ⟨u, hu, hpix⟩ | ⟨rest, -, hstart⟩ | ⟨rest, -, rfl⟩ | ⟨bytes, rest, -, hload⟩ |
    ⟨a, b, rest, -, hwrite⟩ | ⟨rest, -, rfl⟩ | ⟨act, rest, v, -, -, rfl⟩ := step_cases h
  · have hinv : u.Inv := by
      obtain ⟨-, rfl⟩ | ⟨rest, -, rfl⟩ := hu
      · exact hs
      · exact State.Inv_setHost hs rest
    exact execPixstep_preserves_Inv hinv hpix
  · exact execStart_preserves_Inv (State.Inv_setHost hs rest) hstart
  · exact State.Inv_resetBlock (State.Inv_setHost hs rest)
  · exact hostLoad_preserves_Inv (State.Inv_setHost hs rest) hload
  · exact hostWriteByte_preserves_Inv (State.Inv_setHost hs rest) hwrite
  · exact State.Inv_setHost hs rest
  · exact State.Inv_setResult (State.Inv_setHost hs rest) v

end Sys2Proof.Machine
end

section
/-! What the registers read: the STATUS word and the error registers of a consistent state (R10, R11,
R21). -/

namespace Sys2Proof.Machine

/-! STATUS -/

theorem State.status_bits_phase (s : State) : s.status.extractLsb' 0 2 = phaseCode s.phase :=
  BitVec.extractLsb'_append_eq_right

/-- From bit 2 up, STATUS is the word of `ERR_CODE` with 28 zeros above it (R21). -/
theorem State.status_bits_above_phase (s : State) {start len : Nat} (h : 2 ≤ start) :
    s.status.extractLsb' start len = (0#28 ++ errCodeCode s.errCode).extractLsb' (start - 2) len :=
  BitVec.extractLsb'_append_eq_of_le h

theorem State.status_bits_errCode (s : State) :
    s.status.extractLsb' 2 2 = errCodeCode s.errCode := by
  rw [s.status_bits_above_phase (le_refl 2)]
  exact BitVec.extractLsb'_append_eq_right

theorem State.status_bits_reserved (s : State) : s.status.extractLsb' 4 28 = 0 := by
  rw [s.status_bits_above_phase (by omega)]
  exact BitVec.extractLsb'_append_eq_left

theorem State.status_toNat (s : State) :
    s.status.toNat = (phaseCode s.phase).toNat + 4 * (errCodeCode s.errCode).toNat := by
  have hphase := (phaseCode s.phase).isLt
  have hzeros : (0#28 ++ errCodeCode s.errCode).toNat = (errCodeCode s.errCode).toNat := by
    rw [BitVec.toNat_append]
    simp
  rw [State.status, BitVec.toNat_append, ← Nat.shiftLeft_add_eq_or_of_lt hphase, Nat.shiftLeft_eq,
    hzeros]
  omega

/-- Settles O30, field by field of the word. -/
theorem statusPacksPhaseAndErrorCode : Obligations.StatusPacksPhaseAndErrorCode :=
  ⟨fun s => ⟨s.status_bits_phase, s.status_bits_errCode, s.status_bits_reserved, s.status_toNat⟩,
    rfl⟩

/-! The error registers -/

theorem errCodeCode_eq_zero_iff (c : ErrCode) : errCodeCode c = 0 ↔ c = .none := by
  cases c <;> decide

/-- Each phase of a consistent state says whether there is an error: ERROR that there is, the other
three that there is none (R10). -/
theorem State.Inv.errCode_eq_none_iff {s : State} (hs : s.Inv) :
    s.errCode = .none ↔ s.phase ≠ .error := by
  cases hp : s.phase with
  | idle => simp [(hs.idle hp).errCode]
  | busy => simp [(hs.busy hp).errCode]
  | done => simp [(hs.done hp).errCode]
  | error => simp [(hs.error hp).errCode]

/-- Settles O31: the codes by `errCodeCode_eq_zero_iff`, the offset as the invariant has it. -/
theorem errorCodeExactlyInError : Obligations.ErrorCodeExactlyInError := by
  intro s hs
  refine ⟨?_, hs.offset⟩
  rw [Ne, errCodeCode_eq_zero_iff, hs.errCode_eq_none_iff, not_not]

end Sys2Proof.Machine
end

section
/-! `OUT` across one step (R17, R31). -/

namespace Sys2Proof.Machine

theorem execPixstep_out {s t : State} (h : execPixstep s = .next t) :
    t.out = s.out ∨ (s.phase = .busy ∧ ∃ x, t.out = s.out ++ [x]) := by
  obtain ⟨hb, rfl⟩ | ⟨-, rfl⟩ := execPixstep_cases h
  · exact .inr ⟨hb, _, rfl⟩
  · exact .inl rfl

theorem execStart_out {s t : State} (h : execStart s = .next t) : t.out = [] := by
  obtain ⟨-, rfl⟩ := execStart_cases h
  simp

theorem hostLoad_out {bytes : List Byte} {s t : State} (h : hostLoad bytes s = .next t) :
    t.out = s.out := by
  obtain ⟨-, -, rfl⟩ := hostLoad_cases h
  simp

theorem hostWriteByte_out {a : BitVec 64} {b : Byte} {s t : State}
    (h : hostWriteByte a b s = .next t) : t.out = s.out := by
  obtain ⟨-, -, rfl⟩ := hostWriteByte_cases h
  simp

/-- Settles O34: PIXSTEP grows `OUT`, START and RESET empty it, every other step leaves it. -/
theorem outGrowsOneTripletAtATime : Obligations.OutGrowsOneTripletAtATime := by
  intro s t h
  obtain ⟨u, hu, hpix⟩ | ⟨rest, hhost, hstart⟩ | ⟨rest, hhost, rfl⟩ | ⟨bytes, rest, -, hload⟩ |
    ⟨a, b, rest, -, hwrite⟩ | ⟨rest, -, rfl⟩ | ⟨act, rest, v, -, -, rfl⟩ := step_cases h
  · have hframe : u.phase = s.phase ∧ u.out = s.out := by
      obtain ⟨-, rfl⟩ | ⟨rest, -, rfl⟩ := hu
      · exact ⟨rfl, rfl⟩
      · exact ⟨rfl, rfl⟩
    obtain ⟨hphase, hout⟩ := hframe
    rw [← hphase, ← hout]
    exact (execPixstep_out hpix).imp_right .inl
  · exact .inr (.inr ⟨execStart_out hstart, _, rest, hhost, .inl rfl⟩)
  · exact .inr (.inr ⟨rfl, _, rest, hhost, .inr rfl⟩)
  · exact .inl (hostLoad_out (s := s.setHost rest) hload)
  · exact .inl (hostWriteByte_out (s := s.setHost rest) hwrite)
  · exact .inl rfl
  · exact .inl rfl

end Sys2Proof.Machine
end

section
/-! What the host's acts on the input do outside BUSY (R18, R43, R88). -/

namespace Sys2Proof.Machine

/-! LOAD -/

theorem hostLoad_quiescent {s : State} {bytes : List Byte} (hq : s.phase ≠ .busy)
    (hlen : bytes.length < 2 ^ 64) :
    hostLoad bytes s =
      .next (s.setInput (Memory.ofBytes bytes) (BitVec.ofNat 64 bytes.length)) := by
  rw [hostLoad, if_neg hq, if_neg (by omega)]

/-- A buffer just loaded reads its bytes back, in order. -/
theorem readByte_of_loaded {t : State} {bytes : List Byte} (hbuf : t.inBuf = Memory.ofBytes bytes)
    (hlen : t.len.toNat = bytes.length) {a : Nat} (ha : a < bytes.length) :
    t.readByte a = .ok bytes[a] := by
  rw [State.readByte_ok (hlen ▸ ha), State.byteAt, hbuf, Memory.lookup_ofBytes,
    List.getD_eq_getElem _ _ ha]

/-- Settles O42: the step is the load, and a loaded buffer reads back its bytes. -/
theorem loadPlacesTheInput : Obligations.LoadPlacesTheInput := by
  intro s bytes rest hq hfits hhost
  have hstep := (step_load hhost).trans (hostLoad_quiescent (s := s.setHost rest) hq hfits)
  have hlen : (BitVec.ofNat 64 bytes.length).toNat = bytes.length := by
    rw [BitVec.toNat_ofNat, Nat.mod_eq_of_lt hfits]
  refine ⟨_, hstep, rfl, hlen, ?_, fun a ha => readByte_of_loaded rfl hlen ha,
    fun a ha => State.readByte_outOfBounds (hlen.trans_le ha)⟩
  rw [State.setInput_len, hlen]
  exact Memory.wf_ofBytes bytes

/-! A byte write -/

theorem hostWriteByte_quiescent {s : State} {a : BitVec 64} {b : Byte} (hq : s.phase ≠ .busy)
    (ha : a.toNat < s.len.toNat) :
    hostWriteByte a b s = .next (s.setInput (Memory.store s.inBuf a.toNat b) s.len) := by
  rw [hostWriteByte, if_neg hq, if_pos ha]

theorem hostWriteByte_outOfBounds {s : State} {a : BitVec 64} {b : Byte} (hq : s.phase ≠ .busy)
    (ha : s.len.toNat ≤ a.toNat) : hostWriteByte a b s = .fault (.outOfBounds a.toNat) := by
  rw [hostWriteByte, if_neg hq, if_neg (by omega)]

/-- What any offset reads after a host byte write (R88). -/
theorem byteAt_setInput_store {s : State} (hwf : Memory.wf s.inBuf s.len.toNat = true) (a : Nat)
    (b : Byte) (x : Nat) :
    (s.setInput (Memory.store s.inBuf a b) s.len).byteAt x = if a = x then b else s.byteAt x :=
  Memory.lookup_store hwf a b x

theorem readByte_setInput_store {s : State} (hwf : Memory.wf s.inBuf s.len.toNat = true) {a : Nat}
    (ha : a < s.len.toNat) (b : Byte) :
    (s.setInput (Memory.store s.inBuf a b) s.len).readByte a = .ok b := by
  rw [State.readByte_ok (by simpa using ha), byteAt_setInput_store hwf, if_pos rfl]

/-- Settles O43: the step is one `store` in a buffer in canonical form, or the fault past `L`. -/
theorem hostByteWriteChangesOneByte : Obligations.HostByteWriteChangesOneByte := by
  intro s a b rest hq hwf hhost
  constructor
  · intro ha
    have hstep :=
      (step_writeByte hhost).trans (hostWriteByte_quiescent (s := s.setHost rest) hq ha)
    refine ⟨_, hstep, rfl, Memory.wf_store hwf ha b, ?_, fun x hx => ?_⟩
    · exact readByte_setInput_store (s := s.setHost rest) hwf ha b
    · exact (byteAt_setInput_store (s := s.setHost rest) hwf _ b x).trans (if_neg hx.symm)
  · intro ha
    exact (step_writeByte hhost).trans (hostWriteByte_outOfBounds (s := s.setHost rest) hq ha)

end Sys2Proof.Machine
end

section
/-! Reading the input: MemRead and the reads of PIXSTEP past `L` (R27, R34). -/

namespace Sys2Proof.Machine

/-! MemRead -/

theorem State.memRead_succ {s : State} {a n rest : Nat} (ha : a < s.len.toNat)
    (hrest : s.memRead (a + 1) n = .ok rest) :
    s.memRead a (n + 1) = .ok ((s.byteAt a).toNat + 256 * rest) := by
  rw [State.memRead, State.readByte_ok ha, hrest]
  rfl

/-- The little-endian sum of `n` bytes from offset `a` (R27). -/
def State.leSum (s : State) (a n : Nat) : Nat :=
  ((List.range n).map fun k => (s.byteAt (a + k)).toNat * 2 ^ (8 * k)).sum

/-- The first byte is the least significant: the others weigh 256 times what they weigh alone. -/
theorem State.leSum_succ (s : State) (a n : Nat) :
    s.leSum a (n + 1) = (s.byteAt a).toNat + 256 * s.leSum (a + 1) n := by
  have hshift : ∀ k, (s.byteAt (a + (k + 1))).toNat * 2 ^ (8 * (k + 1)) =
      256 * ((s.byteAt (a + 1 + k)).toNat * 2 ^ (8 * k)) := by
    intro k
    rw [show a + (k + 1) = a + 1 + k by omega, show 8 * (k + 1) = 8 * k + 8 by omega, pow_add]
    ring
  simp only [State.leSum, List.range_succ_eq_map, List.map_cons, List.map_map, List.sum_cons,
    Function.comp_def, Nat.succ_eq_add_one, hshift, List.sum_map_mul_left]
  simp

/-- A range inside the buffer reads as its little-endian sum, by recursion on its length. -/
theorem State.memRead_eq_leSum (s : State) (a n : Nat) (h : a + n ≤ s.len.toNat) :
    s.memRead a n = .ok (s.leSum a n) := by
  induction n generalizing a with
  | zero => rfl
  | succ n ih =>
    rw [State.memRead_succ (by omega) (ih (a + 1) (by omega)), State.leSum_succ]

/-- Two bytes read as the 16-bit field they form (R27, R36). -/
theorem State.memRead_two {s : State} {a : Nat} (h : a + 2 ≤ s.len.toNat) :
    s.memRead a 2 = .ok (le16 (s.byteAt a) (s.byteAt (a + 1))).toNat := by
  rw [s.memRead_eq_leSum a 2 h, le16_toNat, State.leSum_succ, State.leSum_succ]
  simp [State.leSum]

/-- Settles O8: the sum by the recursion of MemRead, the header's fields as reads of two bytes. -/
theorem memReadIsLittleEndianSum : Obligations.MemReadIsLittleEndianSum := by
  refine ⟨State.memRead_eq_leSum, fun s hlen => ⟨_, State.headerWord_ok hlen, ?_, ?_⟩⟩
  · rw [hdrColumns_headerWordOf, State.memRead_two (by omega)]
    rfl
  · rw [hdrRows_headerWordOf, State.memRead_two (by omega)]
    rfl

/-! PIXSTEP past `L` -/

/-- The plane bytes are read in plane order, so the first missing one names the fault (log 16). -/
theorem State.planeBytes_missing {s : State} {i : BitVec 32} {k : Nat} (hk : k < 4)
    (hbelow : ∀ j, j < k → planeOffset s.n j i < s.len.toNat)
    (hmissing : s.len.toNat ≤ planeOffset s.n k i) :
    s.planeBytes i = .error (.outOfBounds (planeOffset s.n k i)) := by
  have hok : ∀ j, j < k → s.readByte (planeOffset s.n j i) = .ok (s.byteAt (planeOffset s.n j i)) :=
    fun j hj => State.readByte_ok (hbelow j hj)
  have hfault := State.readByte_outOfBounds hmissing
  unfold State.planeBytes
  match k, hk with
  | 0, _ => rw [hfault]; rfl
  | 1, _ => rw [hok 0 (by omega), hfault]; rfl
  | 2, _ => rw [hok 0 (by omega), hok 1 (by omega), hfault]; rfl
  | 3, _ => rw [hok 0 (by omega), hok 1 (by omega), hok 2 (by omega), hfault]; rfl

theorem execPixstep_fault {s : State} {f : Fault} (hb : s.phase = .busy)
    (h : s.planeBytes s.bi = .error f) : execPixstep s = .fault f := by
  rw [execPixstep, if_pos hb, h]

/-- Settles O10: PIXSTEP passes on the fault of the first missing plane byte. -/
theorem pixstepReadPastEndFaults : Obligations.PixstepReadPastEndFaults :=
  fun _ _ hb hk hbelow hmissing =>
    execPixstep_fault hb (State.planeBytes_missing hk hbelow hmissing)

end Sys2Proof.Machine
end

section
/-! The frame of the operations: the input, the palette, the parameter and the host's acts; and the
input across a step in BUSY (R4, R26, R30, R60, R88). -/

namespace Sys2Proof.Machine

/-- What an operation has no port to write: the input and its length (R26), the palette (R60), the
parameter (R4) and the host's acts (log 2). -/
structure State.SameOutside (s t : State) : Prop where
  inBuf : t.inBuf = s.inBuf
  len : t.len = s.len
  palRom : t.palRom = s.palRom
  cfg : t.cfg = s.cfg
  host : t.host = s.host

theorem State.SameOutside_refl (s : State) : s.SameOutside s := ⟨rfl, rfl, rfl, rfl, rfl⟩

theorem State.SameOutside_setResult (s : State) (v : DatapathResult) :
    s.SameOutside (s.setResult v) := ⟨rfl, rfl, rfl, rfl, rfl⟩

theorem execStart_sameOutside {s t : State} (h : execStart s = .next t) : s.SameOutside t := by
  obtain ⟨-, rfl⟩ := execStart_cases h
  constructor <;> simp

theorem execPixstep_sameOutside {s t : State} (h : execPixstep s = .next t) : s.SameOutside t := by
  obtain ⟨-, rfl⟩ | ⟨-, rfl⟩ := execPixstep_cases h
  · exact ⟨rfl, rfl, rfl, rfl, rfl⟩
  · exact State.SameOutside_refl _

/-- The frame of every operation: START and PIXSTEP by what they answer, RESET by what it writes,
the datapath functions because they write the result port only. -/
theorem exec_sameOutside {i : Instr} {s t : State} (h : exec i s = .next t) : s.SameOutside t := by
  cases i with
  | start => exact execStart_sameOutside h
  | reset =>
    obtain rfl : s.resetBlock = t := Host.Outcome.next.inj h
    exact ⟨rfl, rfl, rfl, rfl, rfl⟩
  | pixstep => exact execPixstep_sameOutside h
  | hdrcheck _ => exact Host.Outcome.next.inj h ▸ State.SameOutside_setResult s _
  | unpack1 _ _ _ _ _ => exact Host.Outcome.next.inj h ▸ State.SameOutside_setResult s _
  | unpack8 _ _ _ _ => exact Host.Outcome.next.inj h ▸ State.SameOutside_setResult s _
  | palmap _ => exact Host.Outcome.next.inj h ▸ State.SameOutside_setResult s _

/-- Settles O32: the frame, read byte by byte. -/
theorem operationsNeverWriteInput : Obligations.OperationsNeverWriteInput := by
  intro i s t h
  obtain ⟨hbuf, hlen, hrom, hcfg, hhost⟩ := exec_sameOutside h
  exact ⟨fun a => by rw [State.byteAt, State.byteAt, hbuf], hlen, by rw [hrom], hcfg, hhost⟩

/-! The input while BUSY -/

theorem hostLoad_busy {s : State} (hb : s.phase = .busy) (bytes : List Byte) :
    hostLoad bytes s = .refused .inputWriteWhileBusy := if_pos hb

theorem hostWriteByte_busy {s : State} (hb : s.phase = .busy) (a : BitVec 64) (b : Byte) :
    hostWriteByte a b s = .refused .inputWriteWhileBusy := if_pos hb

/-- A step in BUSY keeps the input: only a load or a byte write could change it, and neither answers
a next state there (R30, R88). -/
theorem step_busy_keeps_input {s t : State} (hb : s.phase = .busy) (h : step s = .next t) :
    t.inBuf = s.inBuf ∧ t.len = s.len := by
  obtain ⟨u, hu, hpix⟩ | ⟨rest, -, hstart⟩ | ⟨rest, -, rfl⟩ | ⟨bytes, rest, -, hload⟩ |
    ⟨a, b, rest, -, hwrite⟩ | ⟨rest, -, rfl⟩ | ⟨act, rest, v, -, -, rfl⟩ := step_cases h
  · have hframe := execPixstep_sameOutside hpix
    obtain ⟨-, rfl⟩ | ⟨rest, -, rfl⟩ := hu
    · exact ⟨hframe.inBuf, hframe.len⟩
    · exact ⟨hframe.inBuf, hframe.len⟩
  · have hframe := execStart_sameOutside hstart
    exact ⟨hframe.inBuf, hframe.len⟩
  · exact ⟨rfl, rfl⟩
  · exact absurd hb (hostLoad_cases hload).1
  · exact absurd hb (hostWriteByte_cases hwrite).1
  · exact ⟨rfl, rfl⟩
  · exact ⟨rfl, rfl⟩

/-- Settles O41: what a step in BUSY keeps, and the two refusals. -/
theorem inputFixedDuringTransaction : Obligations.InputFixedDuringTransaction :=
  fun s hb => ⟨fun _ => step_busy_keeps_input hb,
    fun bytes rest hhost => (step_load hhost).trans (hostLoad_busy (s := s.setHost rest) hb bytes),
    fun a b rest hhost =>
      (step_writeByte hhost).trans (hostWriteByte_busy (s := s.setHost rest) hb a b)⟩

end Sys2Proof.Machine
end

section
/-! No step from a consistent state faults (R34, R79). -/

namespace Sys2Proof.Machine

/-- START reads the header only when it is there, in any state (R34, R44). -/
theorem execStart_ne_fault (s : State) (f : Fault) : execStart s ≠ .fault f := by
  by_cases hb : s.phase = .busy
  · simp [execStart, hb]
  · simp [execStart_quiescent hb]

/-- In BUSY the invariant has the cursor inside the planes and the planes inside `L`. -/
theorem execPixstep_ne_fault {s : State} (hs : s.Inv) (f : Fault) : execPixstep s ≠ .fault f := by
  by_cases hb : s.phase = .busy
  · simp [execPixstep_busy hb (hs.busy hb).inBounds (hs.busy hb).present]
  · simp [execPixstep_quiescent hb]

/-- The other operations read nothing of the input. -/
theorem exec_ne_fault {s : State} (hs : s.Inv) (i : Instr) (f : Fault) : exec i s ≠ .fault f := by
  cases i with
  | start => exact execStart_ne_fault s f
  | reset => simp [exec, execReset]
  | pixstep => exact execPixstep_ne_fault hs f
  | hdrcheck _ => simp [exec, execHdrcheck]
  | unpack1 _ _ _ _ _ => simp [exec, execUnpack1]
  | unpack8 _ _ _ _ => simp [exec, execUnpack8]
  | palmap _ => simp [exec, execPalmap]

theorem rejected_ne_fault (e : DecodeError) (s : State) (f : Fault) : rejected e s ≠ .fault f := by
  cases e <;> simp [rejected]

theorem runWord_ne_fault {s : State} (hs : s.Inv) (w : PortWord) (f : Fault) :
    runWord w s ≠ .fault f := by
  unfold runWord
  split
  · exact exec_ne_fault hs _ f
  · exact rejected_ne_fault _ s f

theorem hostLoad_ne_fault (bytes : List Byte) (s : State) (f : Fault) :
    hostLoad bytes s ≠ .fault f := by
  unfold hostLoad
  split_ifs <;> simp

theorem hostWriteByte_ne_fault {s : State} {a : BitVec 64} (ha : a.toNat < s.len.toNat) (b : Byte)
    (f : Fault) : hostWriteByte a b s ≠ .fault f := by
  unfold hostWriteByte
  rw [if_pos ha]
  split_ifs <;> simp

/-- A host act met in a consistent state does not fault, if a byte it writes exists. -/
theorem runFetched_fetchAct_ne_fault {s : State} (hs : s.Inv) {act : HostAct}
    (hexists : ∀ a b, act = .writeByte a b → a.toNat < s.len.toNat) (f : Fault) :
    runFetched (fetchAct act s) ≠ .fault f := by
  cases act with
  | command c =>
    simp only [fetchAct]
    split_ifs
    · exact runWord_ne_fault hs _ f
    · exact runWord_ne_fault hs _ f
  | load bytes => exact hostLoad_ne_fault bytes s f
  | writeByte a b => exact hostWriteByte_ne_fault (hexists a b rfl) b f
  | hold => simp [fetchAct, runFetched]
  | hdr64 h => exact runWord_ne_fault hs (.hdr64 h) f
  | w1 w => exact runWord_ne_fault hs (.w1 w) f
  | w8 w => exact runWord_ne_fault hs (.w8 w) f
  | idx4 x => exact runWord_ne_fault hs (.idx4 x) f

/-- Settles O37: the block's own step or the host's next act, neither of which faults. -/
theorem consistentStepNeverFaults : Obligations.ConsistentStepNeverFaults := by
  intro s hs hexists f
  cases hhost : s.host with
  | nil =>
    rw [step_no_host hhost]
    exact execPixstep_ne_fault hs f
  | cons act rest =>
    rw [step_host hhost]
    refine runFetched_fetchAct_ne_fault (State.Inv_setHost hs rest) ?_ f
    rintro a b rfl
    exact hexists a b rest hhost

end Sys2Proof.Machine
end

section
/-! The output byte stream (R29). -/

namespace Sys2Proof.Machine

theorem outBytes_length (ts : List Triplet) : (outBytes ts).length = 3 * ts.length := by
  induction ts with
  | nil => rfl
  | cons t ts ih =>
    simp only [outBytes, List.length_cons, ih]
    omega

/-- Triplet 0 is the first three bytes, and past them the stream is that of the other triplets. -/
theorem outBytes_getElem? (ts : List Triplet) (p : Nat) (h : p < ts.length) :
    (outBytes ts)[3 * p]? = some ts[p].r ∧ (outBytes ts)[3 * p + 1]? = some ts[p].g ∧
      (outBytes ts)[3 * p + 2]? = some ts[p].b := by
  induction ts generalizing p with
  | nil => cases h
  | cons t ts ih =>
    cases p with
    | zero => exact ⟨rfl, rfl, rfl⟩
    | succ p => exact ih p (Nat.lt_of_succ_lt_succ h)

/-- Settles O46, both parts by induction on the triplets. -/
theorem outputBytesAreRgbInOrder : Obligations.OutputBytesAreRgbInOrder :=
  fun ts => ⟨outBytes_length ts, outBytes_getElem? ts⟩

end Sys2Proof.Machine
end

section
/-! Two runs on inputs that agree up to `Lreq`: the bytes past it, and what the blocks did before,
change nothing (R25, R68). -/

namespace Sys2Proof.Machine

/-! What START and PIXSTEP read -/

/-- The header word is the first eight bytes and no others (R35). -/
theorem headerWordOf_congr {m m' : List Host.Cell}
    (h : ∀ a, a < headerLength → Memory.lookup m a = Memory.lookup m' a) :
    headerWordOf m = headerWordOf m' := by
  unfold headerLength at h
  simp only [headerWordOf, h 0 (by omega), h 1 (by omega), h 2 (by omega), h 3 (by omega),
    h 4 (by omega), h 5 (by omega), h 6 (by omega), h 7 (by omega)]

/-- A pixel of the picture reads the header's planes only: four bytes below `Lreq` (R24, R25). -/
theorem pixel_congr {m m' : List Host.Cell} {n p : Nat} (hp : p < 8 * n)
    (h : ∀ a, a < 8 + 4 * n → Memory.lookup m a = Memory.lookup m' a) :
    pixel m n p = pixel m' n p := by
  have hi : byteIndexOf p < n := by
    unfold byteIndexOf
    omega
  simp only [pixel, h (8 + byteIndexOf p) (by omega), h (8 + n + byteIndexOf p) (by omega),
    h (8 + 2 * n + byteIndexOf p) (by omega), h (8 + 3 * n + byteIndexOf p) (by omega)]

/-- A cursor inside the planes is the flat index of a pixel of the picture (R53). -/
theorem State.cursor_lt {s : State} (h : s.bi.toNat < s.n.toNat) : s.cursor < 8 * s.n.toNat := by
  simp only [State.cursor, flatIndex]
  omega

/-! A complete input is accepted -/

theorem State.MagicPresent.hdrMagic_eq {s : State} (h : s.MagicPresent) :
    hdrMagic (headerWordOf s.inBuf) = magicWord := by
  obtain ⟨h0, h1, h2, h3⟩ := h
  unfold State.byteAt at h0 h1 h2 h3
  rw [hdrMagic_headerWordOf, h0, h1, h2, h3]
  rfl

theorem State.hdrColumns_toNat (s : State) :
    (hdrColumns (headerWordOf s.inBuf)).toNat = s.fileColumns := by
  rw [hdrColumns_headerWordOf, le16_toNat]
  rfl

theorem State.hdrRows_toNat (s : State) :
    (hdrRows (headerWordOf s.inBuf)).toNat = s.fileRows := by
  rw [hdrRows_headerWordOf, le16_toNat]
  rfl

/-- The header asks for as many bytes as its two numbers say (R25). -/
theorem State.requiredLength_header (s : State) :
    requiredLength
        (planeSize (hdrColumns (headerWordOf s.inBuf)) (hdrRows (headerWordOf s.inBuf))) =
      8 + 4 * (s.fileColumns * s.fileRows) := by
  rw [requiredLength, planeSize_toNat, s.hdrColumns_toNat, s.hdrRows_toNat]
  rfl

/-- With the magic, dimensions the policy allows and all the bytes they ask for, HDRCHECK's record
is the same for every length (R48, R49). -/
theorem headerOf_complete {s : State} {l : BitVec 64} (hmagic : s.MagicPresent)
    (hdims : DimsAccepted s.cfg.dimPolicy s.fileColumns s.fileRows)
    (hlen : 8 + 4 * (s.fileColumns * s.fileRows) ≤ l.toNat) :
    headerOf s.cfg.dimPolicy s.inBuf l =
      { ok := true, code := .none, offset := 0
        c := hdrColumns (headerWordOf s.inBuf), r := hdrRows (headerWordOf s.inBuf)
        n := planeSize (hdrColumns (headerWordOf s.inBuf)) (hdrRows (headerWordOf s.inBuf)) } := by
  obtain ⟨hshort, -⟩ | ⟨-, hno, -⟩ | ⟨-, -, hno, -⟩ | ⟨-, -, -, hshort, -⟩ | ⟨-, -, -, -, heq⟩ :=
    hdrCheck_cases s.cfg.dimPolicy (headerWordOf s.inBuf) l
  · unfold headerLength at hshort
    omega
  · exact absurd hmagic.hdrMagic_eq hno
  · rw [← Bool.not_eq_true, dimOk_iff, s.hdrColumns_toNat, s.hdrRows_toNat] at hno
    exact absurd hdims hno
  · rw [s.requiredLength_header] at hshort
    omega
  · exact heq

/-! Two runs side by side -/

/-- Two blocks in the same place of the same transaction: what the block shows is equal, and both
hold the whole input, equal up to `Lreq`. Nothing is said of the bytes past it, of the two lengths or
of the rest of the states. -/
structure State.Alike (s t : State) : Prop where
  out : s.out = t.out
  phase : s.phase = t.phase
  bi : s.bi = t.bi
  sh : s.sh = t.sh
  errCode : s.errCode = t.errCode
  errOffset : s.errOffset = t.errOffset
  columns : s.columns = t.columns
  rows : s.rows = t.rows
  n : s.n = t.n
  presentLeft : s.InputPresent
  presentRight : t.InputPresent
  inBounds : s.phase = .busy → s.bi.toNat < s.n.toNat
  bytes : ∀ a, a < requiredLength s.n → s.byteAt a = t.byteAt a

/-- The pixel at the cursor is the same in both. -/
theorem State.Alike.pixel_eq {s t : State} (h : s.Alike t) (hb : s.phase = .busy) :
    pixel s.inBuf s.n.toNat s.cursor = pixel t.inBuf t.n.toNat t.cursor := by
  have hcursor : s.cursor = t.cursor := by rw [State.cursor, State.cursor, h.bi, h.sh]
  rw [← h.n, ← hcursor]
  exact pixel_congr (State.cursor_lt (h.inBounds hb)) h.bytes

/-- In BUSY the two emit the same pixel and move their cursors alike. -/
theorem State.Alike.afterPixel {s t : State} (h : s.Alike t) (hb : s.phase = .busy) :
    s.afterPixel.Alike t.afterPixel where
  out := by simp [State.afterPixel, h.out, h.pixel_eq hb]
  phase := if_congr (by simp [h.sh, h.bi, h.n]) rfl h.phase
  bi := if_congr (by simp [h.sh]) h.bi (by simp [h.bi])
  sh := if_congr (by simp [h.sh]) (by simp [h.sh]) rfl
  errCode := h.errCode
  errOffset := h.errOffset
  columns := h.columns
  rows := h.rows
  n := h.n
  presentLeft := h.presentLeft
  presentRight := h.presentRight
  inBounds hp := by
    have hl : ¬ s.AtLastPixel := fun hl => by
      rw [show s.afterPixel.phase = .done from State.advance_phase_of_last hl] at hp
      cases hp
    exact State.advance_bi_lt (h.inBounds hb) hl
  bytes := h.bytes

/-- One PIXSTEP, enabled in both or in neither, keeps them alike. -/
theorem State.Alike.after_pixstep {s t : State} (h : s.Alike t) :
    ∃ s' t', exec .pixstep s = .next s' ∧ exec .pixstep t = .next t' ∧ s'.Alike t' := by
  by_cases hb : s.phase = .busy
  · have hbt : t.phase = .busy := h.phase ▸ hb
    have hit : t.bi.toNat < t.n.toNat := h.bi ▸ h.n ▸ h.inBounds hb
    exact ⟨_, _, execPixstep_busy hb (h.inBounds hb) h.presentLeft,
      execPixstep_busy hbt hit h.presentRight, h.afterPixel hb⟩
  · have hbt : t.phase ≠ .busy := h.phase ▸ hb
    exact ⟨s, t, execPixstep_quiescent hb, execPixstep_quiescent hbt, h⟩

theorem pixsteps_succ {s t : State} (h : exec .pixstep s = .next t) (k : Nat) :
    pixsteps (k + 1) s = pixsteps k t := by
  rw [pixsteps, h]

/-- Any number of PIXSTEPs keeps them alike. -/
theorem State.Alike.after_pixsteps {s t : State} (h : s.Alike t) (k : Nat) :
    ∃ s' t', pixsteps k s = .next s' ∧ pixsteps k t = .next t' ∧ s'.Alike t' := by
  induction k generalizing s t with
  | zero => exact ⟨s, t, rfl, rfl, h⟩
  | succ k ih =>
    obtain ⟨s', t', hs, ht, halike⟩ := h.after_pixstep
    rw [pixsteps_succ hs, pixsteps_succ ht]
    exact ih halike

/-- One accepted header puts both blocks at the first pixel of the same transaction, whatever they
did before. -/
theorem State.Alike_of_accepted {s t : State} {h : HdrResult} (hok : h.ok = true)
    (hn : 0 < h.n.toNat) (hs : requiredLength h.n ≤ s.len.toNat)
    (ht : requiredLength h.n ≤ t.len.toNat)
    (hbytes : ∀ a, a < requiredLength h.n → s.byteAt a = t.byteAt a) :
    (s.beginTransaction h).Alike (t.beginTransaction h) := by
  rw [State.beginTransaction_of_ok hok, State.beginTransaction_of_ok hok]
  exact ⟨rfl, rfl, rfl, rfl, rfl, rfl, rfl, rfl, rfl, hs, ht, fun _ => hn, hbytes⟩

/-- Settles O52: both STARTs accept the same header, and from there the two blocks stay alike. -/
theorem trailingBytesChangeNothing : Obligations.TrailingBytesChangeNothing := by
  intro s1 s2 hq1 hq2 hcfg hmagic hdims hlen1 hlen2 hbytes k _
  have hword : headerWordOf s1.inBuf = headerWordOf s2.inBuf :=
    headerWordOf_congr fun a ha => hbytes a (by unfold headerLength at ha; omega)
  have hheader1 := headerOf_complete hmagic hdims hlen1
  have hsame : headerOf s2.cfg.dimPolicy s2.inBuf s2.len =
      headerOf s1.cfg.dimPolicy s1.inBuf s1.len := by
    rw [hheader1, ← headerOf_complete hmagic hdims hlen2, headerOf, headerOf, hword, hcfg]
  have hok : (headerOf s1.cfg.dimPolicy s1.inBuf s1.len).ok = true := by rw [hheader1]
  have hreq : requiredLength (headerOf s1.cfg.dimPolicy s1.inBuf s1.len).n =
      8 + 4 * (s1.fileColumns * s1.fileRows) := by rw [hheader1, s1.requiredLength_header]
  have halike := State.Alike_of_accepted hok (headerOf_n_pos hok) (hreq.trans_le hlen1)
    (hreq.trans_le hlen2) (hreq ▸ hbytes)
  obtain ⟨t1, t2, hrun1, hrun2, h⟩ := halike.after_pixsteps k
  refine ⟨t1, t2, ?_, ?_, h.out, h.phase, h.bi, h.sh, h.errCode, h.errOffset, h.columns, h.rows,
    h.n⟩
  · rw [exec, execStart_quiescent hq1, andThen_next, hrun1]
  · rw [exec, execStart_quiescent hq2, hsame, andThen_next, hrun2]

end Sys2Proof.Machine
end

section
/-! The operation map: the word of each operation and the operation of each word (R40, R41). -/

namespace Sys2Proof

/-! Each command code and phase code on its own -/

theorem decodeHostCmd_eq_ok {c : BitVec 2} {i : Instr} (h : decodeHostCmd c = .ok i) :
    c = 0b01#2 ∧ i = .start ∨ c = 0b10#2 ∧ i = .reset := by
  unfold decodeHostCmd at h
  split_ifs at h with hstart hreset
  · exact .inl ⟨hstart, (Except.ok.inj h).symm⟩
  · exact .inr ⟨hreset, (Except.ok.inj h).symm⟩

theorem decodePhase_eq_ok {p : BitVec 2} {i : Instr} (h : decodePhase p = .ok i) :
    p = 0b01#2 ∧ i = .pixstep := by
  unfold decodePhase at h
  split_ifs at h with hbusy
  exact ⟨hbusy, (Except.ok.inj h).symm⟩

/-! The operand words, bit by bit: R40's fields cut a word apart and put it together again -/

theorem decodeW1_append (i8 r g b : Byte) (sh : BitVec 3) :
    decodeW1 (i8 ++ r ++ g ++ b ++ sh) = .unpack1 i8 r g b sh := by
  unfold decodeW1
  congr 1 <;> ext k hk <;> grind

theorem decodeW8_append (i8 r g b : Byte) :
    decodeW8 (i8 ++ r ++ g ++ b) = .unpack8 i8 r g b := by
  unfold decodeW8
  congr 1 <;> ext k hk <;> grind

theorem encode_decodeW1 (w : BitVec 35) : encode (decodeW1 w) = .w1 w := by
  refine congrArg PortWord.w1 ?_
  ext k hk
  grind

theorem encode_decodeW8 (w : BitVec 32) : encode (decodeW8 w) = .w8 w := by
  refine congrArg PortWord.w8 ?_
  ext k hk
  grind

/-! Both ways -/

theorem decode_encode (i : Instr) : decode (encode i) = .ok i := by
  cases i with
  | start => rfl
  | reset => rfl
  | pixstep => rfl
  | hdrcheck h => rfl
  | unpack1 i8 r g b sh => exact congrArg Except.ok (decodeW1_append i8 r g b sh)
  | unpack8 i8 r g b => exact congrArg Except.ok (decodeW8_append i8 r g b)
  | palmap x => rfl

theorem encode_of_decode {w : PortWord} {i : Instr} (h : decode w = .ok i) : encode i = w := by
  cases w with
  | hostCmd c =>
    obtain ⟨rfl, rfl⟩ | ⟨rfl, rfl⟩ := decodeHostCmd_eq_ok h
    · rfl
    · rfl
  | phase2 p =>
    obtain ⟨rfl, rfl⟩ := decodePhase_eq_ok h
    rfl
  | hdr64 x => rw [← Except.ok.inj h, encode]
  | w1 x => rw [← Except.ok.inj h, encode_decodeW1]
  | w8 x => rw [← Except.ok.inj h, encode_decodeW8]
  | idx4 x => rw [← Except.ok.inj h, encode]

/-- Settles O1: by cases on the operation one way, on the format of the word the other. -/
theorem decodeEncodeRoundTrip : Obligations.DecodeEncodeRoundTrip :=
  ⟨fun i _ => decode_encode i, fun _ _ => encode_of_decode⟩

/-! Bit by bit -/

/-- Settles O2: each operand is a field of the word, at the place R40 gives it. -/
theorem operandWordBitsStandInPlace : Obligations.OperandWordBitsStandInPlace := by
  refine ⟨fun w => ⟨_, _, _, _, _, rfl, fun k hk => ?_, fun k hk => ?_⟩,
    fun w => ⟨_, _, _, _, rfl, fun k hk => ?_⟩⟩
  · simp only [BitVec.getLsbD_extractLsb', hk, decide_true, Bool.true_and, and_self]
  · simp only [BitVec.getLsbD_extractLsb', hk, decide_true, Bool.true_and, Nat.zero_add]
  · simp only [BitVec.getLsbD_extractLsb', hk, decide_true, Bool.true_and, Nat.zero_add, and_self]

/-- Settles O3: the words are closed, so the decoder's value on each is computed. -/
theorem wordsOfTheMapDecode : Obligations.WordsOfTheMapDecode :=
  ⟨rfl, rfl, rfl, rfl, rfl, rfl, rfl, rfl, rfl, rfl⟩

end Sys2Proof
end

section
/-! The step and the word it meets: what the host presents, or the block's own PHASE (R40, R41, R64,
R67). -/

namespace Sys2Proof.Machine

/-- A word that stands for an operation reaches the block as it was presented: it is not `CMD = 00`,
which would leave the step to the block (R41). -/
theorem fetchAct_of_presented {w : PortWord} {a : HostAct} {i : Instr}
    (hact : hostActOf w = some a) (hdec : decode w = .ok i) (s : State) :
    fetchAct a s = .word w s := by
  cases w with
  | hostCmd c =>
    obtain rfl := Option.some.inj hact
    obtain ⟨rfl, -⟩ | ⟨rfl, -⟩ := decodeHostCmd_eq_ok hdec
    · rfl
    · rfl
  | phase2 p => cases hact
  | hdr64 h => obtain rfl := Option.some.inj hact; rfl
  | w1 x => obtain rfl := Option.some.inj hact; rfl
  | w8 x => obtain rfl := Option.some.inj hact; rfl
  | idx4 x => obtain rfl := Option.some.inj hact; rfl

theorem runWord_of_decode {w : PortWord} {i : Instr} (h : decode w = .ok i) (s : State) :
    runWord w s = exec i s := by
  rw [runWord, h]

/-- A step whose host act presents an operation's word runs the operation. -/
theorem step_presented {s : State} {a : HostAct} {rest : List HostAct} {w : PortWord} {i : Instr}
    (hhost : s.host = a :: rest) (hact : hostActOf w = some a) (hdec : decode w = .ok i) :
    step s = exec i (s.setHost rest) := by
  rw [step_host hhost, fetchAct_of_presented hact hdec]
  exact runWord_of_decode hdec _

/-- The only operation the block's own PHASE stands for is PIXSTEP (R64). -/
theorem decode_ownWord_eq_ok {s : State} {i : Instr} (h : decode (ownWord s) = .ok i) :
    i = .pixstep := (decodePhase_eq_ok h).2

/-- Settles O4: the host's word by `step_presented`, the block's own by the step that takes it. -/
theorem stepRunsDecodedInstruction : Obligations.StepRunsDecodedInstruction := by
  refine ⟨fun s a rest w i => step_presented, fun s i hhost hdec => ?_,
    fun s rest i hhost hdec => ?_⟩
  · rw [decode_ownWord_eq_ok hdec, step_no_host hhost]
  · rw [decode_ownWord_eq_ok hdec, step_command_none hhost]

/-! A table row's word placed from outside -/

/-- Every word a table row's bits can stand for is one the host can present: none is of PHASE2
(log 6). -/
theorem hostActOf_ofTable {nbits w : Nat} {p : PortWord} (h : PortWord.ofTable nbits w = some p) :
    ∃ a, hostActOf p = some a := by
  cases p with
  | phase2 q =>
    unfold PortWord.ofTable at h
    split_ifs at h <;> cases h
  | hostCmd c => exact ⟨_, rfl⟩
  | hdr64 x => exact ⟨_, rfl⟩
  | w1 x => exact ⟨_, rfl⟩
  | w8 x => exact ⟨_, rfl⟩
  | idx4 x => exact ⟨_, rfl⟩

theorem decodeTableWord_eq_some {nbits w : Nat} {i : Instr}
    (h : decodeTableWord nbits w = some i) :
    ∃ p, PortWord.ofTable nbits w = some p ∧ decode p = .ok i := by
  unfold decodeTableWord at h
  split at h
  · next p hp =>
    split at h
    · next j hj => exact ⟨p, hp, by rw [hj, Option.some.inj h]⟩
    · cases h
  · cases h

theorem placeTableWord_of_ofTable {nbits w : Nat} {p : PortWord} {a : HostAct}
    (hp : PortWord.ofTable nbits w = some p) (ha : hostActOf p = some a) (acts : List HostAct) :
    placeTableWord nbits w acts = a :: acts := by
  simp only [placeTableWord, hp, ha]

/-- Settles O5: the word becomes one host act at the head of the list, and the step takes it off. -/
theorem placedTableWordRunsNext : Obligations.PlacedTableWordRunsNext := by
  intro s nbits w i h
  obtain ⟨p, hp, hdec⟩ := decodeTableWord_eq_some h
  obtain ⟨a, ha⟩ := hostActOf_ofTable hp
  have hhost : (s.withFetchWord nbits w).host = a :: s.host := placeTableWord_of_ofTable hp ha _
  exact step_presented hhost ha hdec

/-! No command and the reserved one -/

/-- Settles O6: without a command the step is a PIXSTEP, which is not enabled outside BUSY. -/
theorem noCommandAndReservedCommand : Obligations.NoCommandAndReservedCommand := by
  refine ⟨fun s hq hhost => ?_, fun s rest hq hhost => ?_, fun s rest => step_command_reserved⟩
  · exact (step_no_host hhost).trans (execPixstep_quiescent hq)
  · exact (step_command_none hhost).trans (execPixstep_quiescent (s := s.setHost rest) hq)

end Sys2Proof.Machine
end

section
/-! The header's fields, assembled from its bytes (R36). -/

namespace Sys2Proof.Machine

/-- Settles O9: the header word of eight bytes, its two fields, and `N`, which cannot wrap (R14). -/
theorem headerFieldsAssembled : Obligations.HeaderFieldsAssembled := by
  intro s hlen
  refine ⟨_, State.headerWord_ok hlen, hdrColumns_headerWordOf s.inBuf,
    hdrRows_headerWordOf s.inBuf, s.hdrColumns_toNat, s.hdrRows_toNat, ?_⟩
  rw [planeSize_toNat, s.hdrColumns_toNat, s.hdrRows_toNat]

end Sys2Proof.Machine
end

section
/-! The lines LOAD, START, RUN and DECODE of host programs, as runs of the step (R43, R68). -/

namespace Sys2Proof.Machine

/-! One line with one act of the host -/

theorem hostDoes_load (bytes : List Byte) (s : State) :
    hostDoes (.load bytes) s = hostLoad bytes s := step_load rfl

theorem hostDoes_start (s : State) : hostDoes (.command 0b01#2) s = exec .start s :=
  step_command_start rfl

theorem hostDoes_noCommand (s : State) : hostDoes (.command 0b00#2) s = exec .pixstep s :=
  step_command_none rfl

/-! RUN -/

theorem runBusy_quiescent {s : State} (h : s.phase ≠ .busy) (fuel : Nat) :
    runBusy fuel s = .next s := by
  cases fuel with
  | zero => rfl
  | succ fuel => exact if_neg h

/-- One round of RUN in BUSY is the pixel at the cursor. -/
theorem runBusy_succ {s : State} (hb : s.phase = .busy) (hok : s.BusyOk) (fuel : Nat) :
    runBusy (fuel + 1) s = runBusy fuel s.afterPixel := by
  have hpix : exec .pixstep s = .next s.afterPixel := execPixstep_busy hb hok.inBounds hok.present
  rw [runBusy, if_pos hb, hostDoes_noCommand, hpix, andThen_next]

/-- Each pixel leaves one fewer, so the fuel of RUN is exactly enough (R71). -/
theorem State.pixelsLeft_afterPixel {s : State} (h : s.bi.toNat < s.n.toNat) :
    s.pixelsLeft = s.afterPixel.pixelsLeft + 1 := by
  have hcursor : s.afterPixel.cursor = s.cursor + 1 := State.advance_cursor h
  have hn : s.afterPixel.n = s.n := rfl
  have hlt := State.cursor_lt h
  rw [State.pixelsLeft, State.pixelsLeft, hcursor, hn]
  omega

/-- After the last pixel `OUT` is the whole image (R66, R68). -/
theorem State.afterPixel_out_of_last {s : State} (h : s.BusyOk) (hl : s.AtLastPixel) :
    s.afterPixel.out = pixels s.inBuf s.n.toNat (8 * s.n.toNat) := by
  have hout := State.afterPixel_out h
  have hcursor : s.afterPixel.cursor = 8 * s.n.toNat := by
    have hlength : s.afterPixel.out.length = 8 * s.n.toNat :=
      (State.DoneOk_afterPixel h hl).outLength
    rwa [hout, pixels_length] at hlength
  rw [hout, hcursor]

/-- `t` ends the transaction that `s` is running: DONE with the whole image, the rest of what the
block shows and the host's side as they were. -/
structure State.Finishes (s t : State) : Prop where
  phase : t.phase = .done
  errCode : t.errCode = s.errCode
  errOffset : t.errOffset = s.errOffset
  out : t.out = pixels s.inBuf s.n.toNat (8 * s.n.toNat)
  host : t.host = s.host
  cfg : t.cfg = s.cfg

theorem State.Finishes_afterPixel {s : State} (h : s.BusyOk) (hl : s.AtLastPixel) :
    s.Finishes s.afterPixel :=
  ⟨State.advance_phase_of_last hl, rfl, rfl, State.afterPixel_out_of_last h hl, rfl, rfl⟩

/-- A PIXSTEP changes nothing by which the end of the transaction is told. -/
theorem State.Finishes_of_afterPixel {s t : State} (h : s.afterPixel.Finishes t) : s.Finishes t :=
  ⟨h.phase, h.errCode, h.errOffset, h.out, h.host, h.cfg⟩

/-- RUN with as much fuel as there are pixels left finishes the transaction. -/
theorem runBusy_finishes (k : Nat) {s : State} (hb : s.phase = .busy) (hok : s.BusyOk)
    (hk : s.pixelsLeft = k) : ∃ t, runBusy k s = .next t ∧ s.Finishes t := by
  have hleft := State.pixelsLeft_afterPixel hok.inBounds
  induction k generalizing s with
  | zero => omega
  | succ k ih =>
    rw [runBusy_succ hb hok]
    by_cases hl : s.AtLastPixel
    · have hfin := State.Finishes_afterPixel hok hl
      exact ⟨_, runBusy_quiescent (by simp [hfin.phase]) k, hfin⟩
    · have hb' : s.afterPixel.phase = .busy := (State.advance_phase_of_not_last hl).trans hb
      have hok' := State.BusyOk_afterPixel hok hl
      obtain ⟨t, hrun, hfin⟩ := ih hb' hok' (by omega) (State.pixelsLeft_afterPixel hok'.inBounds)
      exact ⟨t, hrun, State.Finishes_of_afterPixel hfin⟩

theorem runAll_finishes {s : State} (hb : s.phase = .busy) (hok : s.BusyOk) :
    ∃ t, runAll s = .next t ∧ s.Finishes t := runBusy_finishes s.pixelsLeft hb hok rfl

/-! DECODE -/

theorem decodeRef_of_ok {p : DimPolicy} {m : List Host.Cell} {l : BitVec 64}
    (h : (headerOf p m l).ok = true) :
    decodeRef p m l =
      .ok (pixels m (headerOf p m l).n.toNat (8 * (headerOf p m l).n.toNat)) := if_pos h

theorem decodeRef_of_failed {p : DimPolicy} {m : List Host.Cell} {l : BitVec 64}
    (h : (headerOf p m l).ok = false) :
    decodeRef p m l = .error ((headerOf p m l).code, (headerOf p m l).offset) :=
  if_neg (by simp [h])

/-- `s` after LOAD of `bytes` (R43). -/
def State.afterLoad (s : State) (bytes : List Byte) : State :=
  s.setInput (Memory.ofBytes bytes) (BitVec.ofNat 64 bytes.length)

/-- DECODE outside BUSY is RUN from the transaction that START begins on the loaded bytes. -/
theorem runLine_decode {s : State} {bytes : List Byte} (hq : s.phase ≠ .busy)
    (hlen : bytes.length < 2 ^ 64) :
    runLine (.decode bytes) s =
      runAll ((s.afterLoad bytes).beginTransaction
        (headerOf s.cfg.dimPolicy (Memory.ofBytes bytes) (BitVec.ofNat 64 bytes.length))) := by
  have hload : hostDoes (.load bytes) s = .next (s.afterLoad bytes) :=
    (hostDoes_load bytes s).trans (hostLoad_quiescent hq hlen)
  have hstart := (hostDoes_start (s.afterLoad bytes)).trans (execStart_quiescent hq)
  rw [runLine, hload, andThen_next, hstart, andThen_next]
  rfl

/-- Settles O53: an accepted header is run to its last pixel, a refused one ends at START. -/
theorem decodeLineGivesReferenceResult : Obligations.DecodeLineGivesReferenceResult := by
  intro s bytes hq hhost hlen
  rw [runLine_decode hq hlen]
  cases hok : (headerOf s.cfg.dimPolicy (Memory.ofBytes bytes)
      (BitVec.ofNat 64 bytes.length)).ok with
  | true =>
    rw [decodeRef_of_ok hok, State.beginTransaction_of_ok hok]
    have hbusy := State.BusyOk_of_accepted (s := s.afterLoad bytes) hok
    obtain ⟨t, hrun, hfin⟩ := runAll_finishes rfl hbusy
    exact ⟨t, hrun, hfin.host.trans hhost, hfin.cfg, hfin.phase, hfin.errCode, hfin.errOffset,
      hfin.out⟩
  | false =>
    rw [decodeRef_of_failed hok, State.beginTransaction_of_failed hok]
    exact ⟨_, runBusy_quiescent (by simp) _, hhost, rfl, rfl, rfl, rfl, rfl⟩

end Sys2Proof.Machine
end

section
/-! HDRCHECK as a function of the header word and the length (R45 to R49, R77). -/

namespace Sys2Proof.Machine

/-! The three fields of the header word as plain numbers (R35, R36) -/

theorem hdrMagic_toNat (h : BitVec 64) : (hdrMagic h).toNat = h.toNat / 2 ^ 32 := by
  rw [hdrMagic, BitVec.extractLsb'_toNat, Nat.shiftRight_eq_div_pow]
  have hlt := h.isLt
  omega

theorem hdrMagic_eq_iff (h : BitVec 64) :
    hdrMagic h = magicWord ↔ h.toNat / 2 ^ 32 = 0x50494300 := by
  rw [← BitVec.toNat_inj, hdrMagic_toNat]
  rfl

theorem hdrColumns_toNat (h : BitVec 64) :
    (hdrColumns h).toNat = h.toNat / 2 ^ 24 % 256 + 256 * (h.toNat / 2 ^ 16 % 256) := by
  rw [hdrColumns, le16_toNat, BitVec.extractLsb'_toNat, BitVec.extractLsb'_toNat,
    Nat.shiftRight_eq_div_pow, Nat.shiftRight_eq_div_pow]

theorem hdrRows_toNat (h : BitVec 64) :
    (hdrRows h).toNat = h.toNat / 2 ^ 8 % 256 + 256 * (h.toNat % 256) := by
  rw [hdrRows, le16_toNat, BitVec.extractLsb'_toNat, BitVec.extractLsb'_toNat,
    Nat.shiftRight_eq_div_pow, Nat.shiftRight_zero]

/-! The record of each outcome, given the outcomes before it do not apply (R48) -/

/-- The record HDRCHECK makes from the eight bytes of `h`, once they are there. -/
def hdrRecord (h : BitVec 64) (ok : Bool) (code : ErrCode) (offset : BitVec 64) : HdrResult where
  ok := ok
  code := code
  offset := offset
  c := hdrColumns h
  r := hdrRows h
  n := planeSize (hdrColumns h) (hdrRows h)

section
variable {p : DimPolicy} {h l : BitVec 64}

theorem hdrCheck_badMagic (hlen : headerLength ≤ l.toNat) (hmagic : hdrMagic h ≠ magicWord) :
    hdrCheck p h l = hdrRecord h false .badMagic 0 := by
  rw [hdrCheck, if_neg hlen.not_gt]
  exact if_pos hmagic

theorem hdrCheck_unsupportedDimensions (hlen : headerLength ≤ l.toNat)
    (hmagic : hdrMagic h = magicWord) (hdims : dimOk p (hdrColumns h) (hdrRows h) = false) :
    hdrCheck p h l = hdrRecord h false .unsupportedDimensions 0 := by
  rw [hdrCheck, if_neg hlen.not_gt, if_neg (not_not_intro hmagic)]
  exact if_pos hdims

theorem hdrCheck_planesShort (hlen : headerLength ≤ l.toNat) (hmagic : hdrMagic h = magicWord)
    (hdims : dimOk p (hdrColumns h) (hdrRows h) = true)
    (hshort : l.toNat < requiredLength (planeSize (hdrColumns h) (hdrRows h))) :
    hdrCheck p h l = hdrRecord h false .truncatedInput l := by
  rw [hdrCheck, if_neg hlen.not_gt, if_neg (not_not_intro hmagic), if_neg (by simp [hdims])]
  exact if_pos hshort

/-- The whole input is at least its header, so the first check needs no hypothesis of its own. -/
theorem hdrCheck_whole (hmagic : hdrMagic h = magicWord)
    (hdims : dimOk p (hdrColumns h) (hdrRows h) = true)
    (hreq : requiredLength (planeSize (hdrColumns h) (hdrRows h)) ≤ l.toNat) :
    hdrCheck p h l = hdrRecord h true .none 0 := by
  have hlen : headerLength ≤ l.toNat := (Nat.le_add_right ..).trans hreq
  rw [hdrCheck, if_neg hlen.not_gt, if_neg (not_not_intro hmagic), if_neg (by simp [hdims])]
  exact if_neg hreq.not_gt

end

/-! The same in plain numbers -/

/-- No field of the record is cut: 16 bits hold each dimension, 32 bits their product (R14, R36). -/
theorem hdrRecord_eq_ofNat (h : BitVec 64) (ok : Bool) (code : ErrCode) (offset : BitVec 64) :
    hdrRecord h ok code offset =
      { ok := ok, code := code, offset := offset
        c := BitVec.ofNat 16 (hdrColumns h).toNat, r := BitVec.ofNat 16 (hdrRows h).toNat
        n := BitVec.ofNat 32 ((hdrColumns h).toNat * (hdrRows h).toNat) } := by
  rw [← planeSize_toNat, BitVec.ofNat_toNat, BitVec.ofNat_toNat, BitVec.ofNat_toNat,
    BitVec.setWidth_eq, BitVec.setWidth_eq, BitVec.setWidth_eq]
  rfl

theorem requiredLength_planeSize (c r : BitVec 16) :
    requiredLength (planeSize c r) = 8 + 4 * (c.toNat * r.toNat) := by
  rw [requiredLength, planeSize_toNat]
  rfl

/-- Settles O11: one equation per outcome, once the statement's plain numbers are read as the fields
of the header word. -/
theorem hdrcheckFollowsItsPriority : Obligations.HdrcheckFollowsItsPriority := by
  intro p h l
  simp only [ne_eq, ← hdrMagic_eq_iff, ← hdrColumns_toNat, ← hdrRows_toNat, ← hdrRecord_eq_ofNat,
    ← requiredLength_planeSize, ← dimOk_iff, Bool.not_eq_true]
  exact ⟨hdrCheck_short, hdrCheck_badMagic, hdrCheck_unsupportedDimensions, hdrCheck_planesShort,
    hdrCheck_whole⟩

/-! A passed check -/

theorem hdrCheck_ok_iff (p : DimPolicy) (h l : BitVec 64) :
    (hdrCheck p h l).ok = true ↔ (hdrCheck p h l).code = .none := by
  constructor
  · intro hok
    obtain ⟨-, -, -, -, heq⟩ := hdrCheck_ok hok
    rw [heq]
  · intro hcode
    by_contra hok
    exact (hdrCheck_failed (Bool.eq_false_of_not_eq_true hok)).1 hcode

/-- Settles O12: the accepted dimensions are positive, so their product is, and the length was the
last check. -/
theorem hdrcheckSuccessMeansWholeInput : Obligations.HdrcheckSuccessMeansWholeInput := by
  refine fun p h l => ⟨hdrCheck_ok_iff p h l, fun hok => ?_⟩
  have hsize := hdrCheck_size p h l
  obtain ⟨-, -, hdims, hreq, heq⟩ := hdrCheck_ok hok
  obtain ⟨hc, hr⟩ := dimOk_pos hdims
  refine ⟨?_, hsize, ?_⟩
  · rw [hsize, heq]
    exact Nat.mul_pos hc hr
  · rw [heq]
    exact hreq

end Sys2Proof.Machine
end

section
/-! The datapath functions as operations: each puts its value on the result port (R48, R51, R52,
R57). -/

namespace Sys2Proof.Machine

theorem exec_hdrcheck (h : BitVec 64) (s : State) :
    exec (.hdrcheck h) s = .next (s.setResult (.header (hdrCheck s.cfg.dimPolicy h s.len))) := rfl

theorem exec_unpack1 (i8 r g b : Byte) (sh : BitVec 3) (s : State) :
    exec (.unpack1 i8 r g b sh) s = .next (s.setResult (.index (unpack1 b g r i8 sh))) := rfl

theorem exec_unpack8 (i8 r g b : Byte) (s : State) :
    exec (.unpack8 i8 r g b) s = .next (s.setResult (.lanes (unpack8 b g r i8))) := rfl

/-- PALMAP reads the ROM, which holds what the adder rule computes (R58). -/
theorem exec_palmap (x : PixelIndex) (s : State) :
    exec (.palmap x) s = .next (s.setResult (.triplet (palMap x))) := by
  rw [← palRom_read s.palRom x]
  rfl

/-- Settles O22: one equation per operation, and `setResult` writes the result port only. -/
theorem datapathFunctionsComplete : Obligations.DatapathFunctionsComplete :=
  ⟨exec_hdrcheck, exec_unpack1, exec_unpack8, exec_palmap⟩

end Sys2Proof.Machine
end

section
/-! The flat pixel index, the pair of byte-index and shift, and the raster position (R53, R55). -/

namespace Sys2Proof.Machine

@[simp] theorem byteIndexOf_flatIndex (i s : Nat) : byteIndexOf (flatIndex i s) = i := by
  unfold byteIndexOf flatIndex
  omega

@[simp] theorem shiftOf_flatIndex (i : Nat) {s : Nat} (hs : s ≤ 7) :
    shiftOf (flatIndex i s) = s := by
  unfold shiftOf flatIndex
  omega

theorem shiftOf_le (p : Nat) : shiftOf p ≤ 7 := Nat.sub_le _ _

@[simp] theorem flatIndex_byteIndexOf_shiftOf (p : Nat) :
    flatIndex (byteIndexOf p) (shiftOf p) = p := by
  unfold flatIndex byteIndexOf shiftOf
  omega

/-- Settles O44: the two conversions undo each other, for shifts up to 7. -/
theorem flatIndexConvertsBothWays : Obligations.FlatIndexConvertsBothWays :=
  ⟨fun p => ⟨flatIndex_byteIndexOf_shiftOf p, shiftOf_le p⟩,
    fun i _ hs => ⟨byteIndexOf_flatIndex i _, shiftOf_flatIndex i hs⟩⟩

/-- The cursor's flat index determines `BI`. -/
theorem State.byteIndexOf_cursor (s : State) : byteIndexOf s.cursor = s.bi.toNat :=
  byteIndexOf_flatIndex _ _

/-- The cursor's flat index determines `SH`. -/
theorem State.shiftOf_cursor (s : State) : shiftOf s.cursor = s.sh.toNat :=
  shiftOf_flatIndex _ (by omega)

theorem rasterColumn_lt {columns i s : Nat} (h : 0 < columns) :
    rasterColumn columns i s < 8 * columns := by
  have hmod := Nat.mod_lt i h
  unfold rasterColumn
  omega

theorem rasterRow_lt {columns rows i : Nat} (h : i < columns * rows) :
    rasterRow columns i < rows := Nat.div_lt_of_lt_mul h

/-- The flat index counts the pixels of the rows above and of the byte-columns to the left. -/
theorem flatIndex_eq_raster (columns i s : Nat) :
    flatIndex i s = rasterRow columns i * (8 * columns) + rasterColumn columns i s := by
  unfold flatIndex rasterRow rasterColumn
  calc 8 * i + (7 - s)
      = 8 * (columns * (i / columns) + i % columns) + (7 - s) := by rw [Nat.div_add_mod]
    _ = i / columns * (8 * columns) + (8 * (i % columns) + (7 - s)) := by ring

/-- Settles O45: a byte-index inside the planes means there is a byte-column. -/
theorem rasterPositionIsRowMajor : Obligations.RasterPositionIsRowMajor := by
  intro columns rows i s _ hi
  have hcolumns : 0 < columns := Nat.pos_of_mul_pos_right (Nat.zero_lt_of_lt hi)
  exact ⟨flatIndex_eq_raster columns i s, rasterColumn_lt hcolumns, rasterRow_lt hi⟩

end Sys2Proof.Machine
end

section
/-! The bit deinterleaver: UNPACK1 as a number and the lanes of UNPACK8 (R50 to R52). -/

namespace Sys2Proof.Machine

theorem bitAt_toNat (x : Byte) (s : BitVec 3) :
    (bitAt x s).toNat = x.toNat / 2 ^ s.toNat % 2 := by
  rw [bitAt, BitVec.getLsbD, Nat.toNat_testBit]

/-- The four bits of an index weigh 8, 4, 2 and 1. -/
theorem ofBool_append_toNat (i r g b : Bool) :
    (BitVec.ofBool i ++ BitVec.ofBool r ++ BitVec.ofBool g ++ BitVec.ofBool b).toNat =
      8 * i.toNat + 4 * r.toNat + 2 * g.toNat + b.toNat := by
  revert i r g b
  decide

/-- Settles O17: UNPACK1's value over the four bits, each bit as a number. -/
theorem unpackOneTakesBitOfEachPlane : Obligations.UnpackOneTakesBitOfEachPlane := by
  intro b g r i8 s
  rw [unpack1, ofBool_append_toNat, bitAt_toNat, bitAt_toNat, bitAt_toNat, bitAt_toNat]

theorem ofBool_append_inj {i r g b i' r' g' b' : Bool} :
    BitVec.ofBool i ++ BitVec.ofBool r ++ BitVec.ofBool g ++ BitVec.ofBool b =
        BitVec.ofBool i' ++ BitVec.ofBool r' ++ BitVec.ofBool g' ++ BitVec.ofBool b' ↔
      b = b' ∧ g = g' ∧ r = r' ∧ i = i' := by
  revert i r g b i' r' g' b'
  decide

/-- UNPACK1 loses none of the four bits it takes. -/
theorem unpack1_eq_iff {b g r i8 : Byte} {s s' : BitVec 3} :
    unpack1 b g r i8 s = unpack1 b g r i8 s' ↔
      bitAt b s = bitAt b s' ∧ bitAt g s = bitAt g s' ∧ bitAt r s = bitAt r s' ∧
        bitAt i8 s = bitAt i8 s' := ofBool_append_inj

/-- Lane `k` is the `k`-th pixel from the left (R52). -/
theorem unpack8_getElem (b g r i8 : Byte) (k : Nat) (hk : k < 8) :
    (unpack8 b g r i8)[k] = unpack1 b g r i8 (BitVec.ofNat 3 (7 - k)) := by
  interval_cases k <;> rfl

theorem bitAt_ofNat (x : Byte) {k : Nat} (hk : k < 8) :
    bitAt x (BitVec.ofNat 3 k) = x.getLsbD k := by
  rw [bitAt, BitVec.toNat_ofNat, Nat.mod_eq_of_lt hk]

/-- The lane `k` from the right equals lane `k` when the bits at `k` and `7 - k` agree. -/
theorem unpack8_mirror_lane_iff (b g r i8 : Byte) (k : Nat) (hk : k < 8) :
    (unpack8 b g r i8)[7 - k] = (unpack8 b g r i8)[k] ↔
      b.getLsbD k = b.getLsbD (7 - k) ∧ g.getLsbD k = g.getLsbD (7 - k) ∧
        r.getLsbD k = r.getLsbD (7 - k) ∧ i8.getLsbD k = i8.getLsbD (7 - k) := by
  have hmirror : 7 - (7 - k) = k := by omega
  have hk' : 7 - k < 8 := by omega
  simp only [unpack8_getElem, hmirror, unpack1_eq_iff, bitAt_ofNat _ hk, bitAt_ofNat _ hk']

/-- The lanes read the same from both sides when each equals its mirror lane. -/
theorem unpack8_reverse_eq_iff (b g r i8 : Byte) :
    (unpack8 b g r i8).toList.reverse = (unpack8 b g r i8).toList ↔
      ∀ k (hk : k < 8), (unpack8 b g r i8)[7 - k] = (unpack8 b g r i8)[k] := by
  rw [List.ext_getElem_iff]
  simp

/-- Settles O18: the reversed lanes are compared lane by lane, and a lane with its mirror bit by
bit. -/
theorem unpackEightLanesInOrder : Obligations.UnpackEightLanesInOrder := by
  refine ⟨unpack8_getElem, fun b g r i8 => ?_⟩
  rw [unpack8_reverse_eq_iff]
  exact forall₂_congr (unpack8_mirror_lane_iff b g r i8)

end Sys2Proof.Machine
end

section
/-! The image DECODE gives (R54, R56, R68). -/

namespace Sys2Proof.Machine

theorem pixels_getElem? (m : List Host.Cell) (n : Nat) {total k : Nat} (hk : k < total) :
    (pixels m n total)[k]? = some (pixel m n k) := by
  simp [pixels, hk]

/-- DECODE succeeds on accepted headers only, with all the pixels of the planes. -/
theorem decodeRef_eq_ok {p : DimPolicy} {m : List Host.Cell} {l : BitVec 64} {seq : List Triplet}
    (h : decodeRef p m l = .ok seq) :
    (headerOf p m l).ok = true ∧
      seq = pixels m (headerOf p m l).n.toNat (8 * (headerOf p m l).n.toNat) := by
  cases hok : (headerOf p m l).ok with
  | true =>
    rw [decodeRef_of_ok hok] at h
    exact ⟨rfl, (Except.ok.inj h).symm⟩
  | false =>
    rw [decodeRef_of_failed hok] at h
    cases h

/-- Settles O47: `8 * N` pixels by the reference function, and `N` is the product of the accepted
dimensions. -/
theorem decodedImageHasEveryPixelOnce : Obligations.DecodedImageHasEveryPixelOnce := by
  intro p m l seq hseq h
  obtain ⟨hok, rfl⟩ := decodeRef_eq_ok hseq
  have hpos : 0 < h.n.toNat := headerOf_n_pos hok
  have hsize : h.n.toNat = h.c.toNat * h.r.toNat := hdrCheck_size p (headerWordOf m) l
  rw [pixels_length]
  refine ⟨?_, Nat.mul_pos (by decide) hpos, fun k hk => pixels_getElem? m h.n.toNat hk⟩
  calc 8 * h.n.toNat = 8 * (h.c.toNat * h.r.toNat) := by rw [hsize]
    _ = h.c.toNat * 8 * h.r.toNat := by ring

end Sys2Proof.Machine
end

section
/-! Runs of PIXSTEPs from any place of a transaction, and the eight of one byte-index (R52, R65,
R66, R69). -/

namespace Sys2Proof.Machine

/-! One PIXSTEP by the cursor -/

theorem State.AtLastPixel_iff {s : State} (h : s.bi.toNat < s.n.toNat) :
    s.AtLastPixel ↔ s.cursor + 1 = 8 * s.n.toNat := by
  have hsh := s.sh.isLt
  rw [State.AtLastPixel, bi_succ_eq h, State.cursor, flatIndex]
  omega

/-- The whole input is present, and the phase tells by the cursor whether pixels are left: BUSY up
to the last one, DONE past it (R65, R66). Nothing is said of `OUT` or of the header. -/
structure State.InTransaction (s : State) : Prop where
  present : s.InputPresent
  phase : s.phase = if s.cursor = 8 * s.n.toNat then .done else .busy

theorem State.InTransaction_of_busy {s : State} (hb : s.phase = .busy)
    (hi : s.bi.toNat < s.n.toNat) (hp : s.InputPresent) : s.InTransaction :=
  ⟨hp, by rw [if_neg (State.cursor_lt hi).ne, hb]⟩

theorem State.bi_lt_of_cursor_lt {s : State} (h : s.cursor < 8 * s.n.toNat) :
    s.bi.toNat < s.n.toNat := by
  simp only [State.cursor, flatIndex] at h
  omega

/-- With pixels left, PIXSTEP emits the one at the cursor. -/
theorem State.InTransaction.exec_pixstep {s : State} (h : s.InTransaction)
    (hc : s.cursor < 8 * s.n.toNat) : exec .pixstep s = .next s.afterPixel :=
  execPixstep_busy (h.phase.trans (if_neg hc.ne)) (State.bi_lt_of_cursor_lt hc) h.present

theorem State.InTransaction.afterPixel {s : State} (h : s.InTransaction)
    (hc : s.cursor < 8 * s.n.toNat) : s.afterPixel.InTransaction where
  present := h.present
  phase := by
    have hbi := State.bi_lt_of_cursor_lt hc
    have hcursor : s.afterPixel.cursor = s.cursor + 1 := State.advance_cursor hbi
    have hbusy : s.phase = .busy := h.phase.trans (if_neg hc.ne)
    rw [hcursor]
    exact if_congr (State.AtLastPixel_iff hbi) rfl hbusy

/-! Any number of PIXSTEPs -/

/-- `t` is `s` after `k` pixels: they are out, in flat order, and the cursor is past them. -/
structure State.Emits (s : State) (k : Nat) (t : State) : Prop where
  out : t.out = s.out ++ (List.range' s.cursor k).map (pixel s.inBuf s.n.toNat)
  cursor : t.cursor = s.cursor + k
  n : t.n = s.n
  inTransaction : t.InTransaction

/-- A pixel first and then `k` more are `k + 1` pixels. -/
theorem State.Emits_of_afterPixel {s t : State} {k : Nat} (hi : s.bi.toNat < s.n.toNat)
    (h : s.afterPixel.Emits k t) : s.Emits (k + 1) t := by
  have hcursor : s.afterPixel.cursor = s.cursor + 1 := State.advance_cursor hi
  refine ⟨?_, by rw [h.cursor, hcursor]; omega, h.n, h.inTransaction⟩
  rw [h.out, hcursor, List.range'_succ, List.map_cons, List.append_cons]
  rfl

/-- As many PIXSTEPs as there are pixels left, or fewer, emit that many pixels (R65, R68). -/
theorem State.InTransaction.pixsteps_emit {s : State} (h : s.InTransaction) (k : Nat)
    (hk : s.cursor + k ≤ 8 * s.n.toNat) : ∃ t, pixsteps k s = .next t ∧ s.Emits k t := by
  induction k generalizing s with
  | zero => exact ⟨s, rfl, by simp, rfl, rfl, h⟩
  | succ k ih =>
    have hc : s.cursor < 8 * s.n.toNat := by omega
    have hi := State.bi_lt_of_cursor_lt hc
    have hcursor : s.afterPixel.cursor = s.cursor + 1 := State.advance_cursor hi
    have hk' : s.afterPixel.cursor + k ≤ 8 * s.afterPixel.n.toNat := by
      rw [hcursor, show s.afterPixel.n = s.n from rfl]
      omega
    obtain ⟨t, hrun, hemits⟩ := ih (h.afterPixel hc) hk'
    exact ⟨t, (pixsteps_succ (h.exec_pixstep hc) k).trans hrun,
      State.Emits_of_afterPixel hi hemits⟩

/-! The eight pixels of one byte-index -/

/-- Pixel `k` of byte-index `i` is UNPACK8's lane `k` of the four bytes there (R52, R53). -/
theorem pixel_eq_lane (m : List Host.Cell) (n i k : Nat) (hk : k < 8) :
    pixel m n (8 * i + k) =
      palMap (unpack8 (Memory.lookup m (8 + i)) (Memory.lookup m (8 + n + i))
        (Memory.lookup m (8 + 2 * n + i)) (Memory.lookup m (8 + 3 * n + i)))[k] := by
  have hflat : 8 * i + k = flatIndex i (7 - k) := by
    unfold flatIndex
    omega
  rw [unpack8_getElem, pixel, hflat, byteIndexOf_flatIndex, shiftOf_flatIndex i (Nat.sub_le 7 k)]

theorem pixels_of_byteIndex_eq_lanes (m : List Host.Cell) (n i : Nat) :
    (List.range' (8 * i) 8).map (pixel m n) =
      (unpack8 (Memory.lookup m (8 + i)) (Memory.lookup m (8 + n + i))
        (Memory.lookup m (8 + 2 * n + i)) (Memory.lookup m (8 + 3 * n + i))).toList.map palMap := by
  refine List.ext_getElem (by simp) fun k hk _ => ?_
  have hk8 : k < 8 := by simpa using hk
  simpa using pixel_eq_lane m n i k hk8

/-- Settles O27: eight pixels from the left edge of a byte-index, which are the lanes there, put the
cursor at the left edge of the next. -/
theorem eightPixstepsEmitUnpackEightLanes : Obligations.EightPixstepsEmitUnpackEightLanes := by
  intro s hb hi hp hsh
  have hcursor : s.cursor = 8 * s.bi.toNat := by
    rw [State.cursor, flatIndex, hsh]
    rfl
  have hstart : s.InTransaction := State.InTransaction_of_busy hb hi hp
  obtain ⟨t, hrun, hemits⟩ := hstart.pixsteps_emit 8 (by omega)
  have hnext : t.cursor = flatIndex (s.bi.toNat + 1) 7 := by
    rw [hemits.cursor, hcursor, flatIndex]
    omega
  have hbi : t.bi.toNat = s.bi.toNat + 1 := by
    rw [← t.byteIndexOf_cursor, hnext, byteIndexOf_flatIndex]
  have hshift : t.sh.toNat = 7 := by
    rw [← t.shiftOf_cursor, hnext, shiftOf_flatIndex _ le_rfl]
  refine ⟨t, hrun, hbi, BitVec.eq_of_toNat_eq hshift, ?_, ?_⟩
  · rw [hemits.inTransaction.phase, hemits.n, hemits.cursor, hcursor]
    exact if_congr (by omega) rfl rfl
  · rw [hemits.out, hcursor, pixels_of_byteIndex_eq_lanes]
    rfl

end Sys2Proof.Machine
end

section
/-! The palette: what one channel is, what a triplet packs to, and the entries of the ROM (R57 to
R59, R61). -/

namespace Sys2Proof.Machine

/-- The value of one of the two terms of a channel, present or not. -/
theorem channelTerm_toNat (bit : Bool) (term : Byte) :
    (if bit then term else 0#8).toNat = if bit then term.toNat else 0 := by
  split <;> rfl

/-- 0xAA and 0x55 share no set bit, whichever of the two are present. -/
theorem channelTerms_disjoint (colour intensity : Bool) :
    (if colour then colourTerm else 0#8) &&& (if intensity then intensityTerm else 0#8) = 0#8 := by
  cases colour with
  | false => exact BitVec.zero_and
  | true =>
    cases intensity with
    | false => exact BitVec.and_zero
    | true => rfl

/-- Disjoint terms add without a carry (R59). -/
theorem channel_eq_or (colour intensity : Bool) :
    channel colour intensity =
      (if colour then colourTerm else 0#8) ||| (if intensity then intensityTerm else 0#8) :=
  BitVec.add_eq_or_of_and_eq_zero _ _ (channelTerms_disjoint colour intensity)

/-- The sum of the terms is exact: at most `0xAA + 0x55 = 0xFF` (R59). -/
theorem channel_toNat (colour intensity : Bool) :
    (channel colour intensity).toNat =
      (if colour then 0xAA else 0) + (if intensity then 0x55 else 0) := by
  have hcolour := channelTerm_toNat colour colourTerm
  have hintensity := channelTerm_toNat intensity intensityTerm
  rw [show colourTerm.toNat = 0xAA from rfl] at hcolour
  rw [show intensityTerm.toNat = 0x55 from rfl] at hintensity
  rw [channel, BitVec.toNat_add_of_lt (by rw [hcolour, hintensity]; split_ifs <;> omega), hcolour,
    hintensity]

theorem channel_toNat_eq_mul (colour intensity : Bool) :
    (channel colour intensity).toNat = 0xAA * colour.toNat + 0x55 * intensity.toNat := by
  simp only [channel_toNat, Bool.toNat, Bool.cond_eq_ite, mul_ite, mul_one, mul_zero]

/-- Neither term, one of them or both (R61). -/
theorem channel_mem_valueSet (colour intensity : Bool) :
    channel colour intensity = 0x00 ∨ channel colour intensity = 0x55 ∨
      channel colour intensity = 0xAA ∨ channel colour intensity = 0xFF :=
  match colour, intensity with
  | false, false => .inl rfl
  | false, true => .inr (.inl rfl)
  | true, false => .inr (.inr (.inl rfl))
  | true, true => .inr (.inr (.inr rfl))

/-- The shifted channels of a packed triplet do not overlap: they stand side by side (R39). -/
theorem packTriplet_eq_append (t : Triplet) : packTriplet t = t.r ++ (t.g ++ t.b) := by
  refine BitVec.eq_of_getLsbD_eq fun i hi => ?_
  simp only [packTriplet, BitVec.getLsbD_or, BitVec.getLsbD_shiftLeft, BitVec.getLsbD_setWidth,
    BitVec.getLsbD_append]
  rcases lt_or_ge i 8 with hblue | hblue
  · simp [hblue, show i < 16 by omega, hi]
  · have hb := t.b.getLsbD_of_ge i hblue
    rcases lt_or_ge i 16 with hgreen | hgreen
    · simp [hb, hgreen, show ¬ i < 8 by omega, hi, show i - 8 < 24 by omega]
    · have hg := t.g.getLsbD_of_ge (i - 8) (by omega)
      simp [hb, hg, show ¬ i < 16 by omega, hi, show i - 16 < 24 by omega]

theorem packTriplet_toNat (t : Triplet) :
    (packTriplet t).toNat = 0x10000 * t.r.toNat + 0x100 * t.g.toNat + t.b.toNat := by
  have hg := t.g.isLt
  have hb := t.b.isLt
  have hgb := (t.g ++ t.b).isLt
  rw [packTriplet_eq_append, BitVec.toNat_append, ← Nat.shiftLeft_add_eq_or_of_lt hgb,
    BitVec.toNat_append, ← Nat.shiftLeft_add_eq_or_of_lt hb, Nat.shiftLeft_eq, Nat.shiftLeft_eq]
  omega

/-- A triplet of the adder rule is the ROM's entry at its index. -/
theorem palMap_mem_palRomContents (x : PixelIndex) : palMap x ∈ palRomContents.toList := by
  rw [← palRom_read PalRom.rom x]
  exact Vector.mem_toList_iff.mpr (Vector.getElem_mem _)

/-- Settles O19: the ROM reads as the adder rule, and each channel is the exact sum of its terms. -/
theorem palmapFollowsChannelRule : Obligations.PalmapFollowsChannelRule := fun p x =>
  ⟨palRom_read p x, channel_toNat_eq_mul _ _, channel_toNat_eq_mul _ _,
    channel_toNat_eq_mul _ _⟩

/-- Settles O20: the packed value is linear in the channels, and each channel in the index's
bits. -/
theorem paletteRomEntriesAsPacked : Obligations.PaletteRomEntriesAsPacked := by
  intro s x
  rw [palRom_read, packTriplet_toNat]
  simp only [palMap, channel_toNat_eq_mul]
  omega

/-- Settles O21, from the two terms of one channel and the ROM that holds every triplet. -/
theorem paletteChannelsNeverCarry : Obligations.PaletteChannelsNeverCarry := by
  refine ⟨fun colour intensity =>
    ⟨channel_toNat colour intensity, channel_eq_or colour intensity⟩,
    fun x => ⟨palMap_mem_palRomContents x, ?_⟩⟩
  simp only [palMap, List.forall_mem_cons, List.not_mem_nil, false_implies, implies_true, and_true]
  exact ⟨channel_mem_valueSet _ _, channel_mem_valueSet _ _, channel_mem_valueSet _ _⟩

end Sys2Proof.Machine
end

section
/-! START, by HDRCHECK's record and by the bytes of `IN` (R62, R63). -/

namespace Sys2Proof.Machine

/-- Settles O13: START's writes by the verdict of the header check. -/
theorem startFollowsHeaderCheck : Obligations.StartFollowsHeaderCheck := by
  intro s hq
  rw [exec, execStart_quiescent hq]
  cases hok : (headerOf s.cfg.dimPolicy s.inBuf s.len).ok with
  | true =>
    rw [State.beginTransaction_of_ok hok]
    exact congrArg Host.Outcome.next (if_pos hok).symm
  | false =>
    rw [State.beginTransaction_of_failed hok]
    exact congrArg Host.Outcome.next (if_neg (by simp [hok])).symm

/-- An accepted record of the buffer's header word puts the two numbers of its bytes into the
dimensions and their product into `N` (R14, R36). -/
theorem State.beginTransaction_hdrRecord (s : State) :
    s.beginTransaction (hdrRecord (headerWordOf s.inBuf) true .none 0) =
      s.afterStart s.fileColumns s.fileRows := by
  rw [hdrRecord_eq_ofNat, s.hdrColumns_toNat, s.hdrRows_toNat]
  rfl

/-- Settles O14: HDRCHECK accepts the input, so START begins with the numbers in its bytes. -/
theorem startAcceptsCompleteInput : Obligations.StartAcceptsCompleteInput := by
  intro s hq hmagic hdims hlen
  have hheader : headerOf s.cfg.dimPolicy s.inBuf s.len =
      hdrRecord (headerWordOf s.inBuf) true .none 0 := headerOf_complete hmagic hdims hlen
  rw [exec, execStart_quiescent hq, hheader, s.beginTransaction_hdrRecord]

/-- Settles O16: the refusal is START's first branch. -/
theorem startInBusyRefused : Obligations.StartInBusyRefused := fun _ hb => if_pos hb

end Sys2Proof.Machine
end

section
/-! One PIXSTEP: the pixel it emits and where the cursor goes (R64 to R66). -/

namespace Sys2Proof.Machine

/-! The pixel and the move, in the registers -/

/-- The pixel at the cursor, from bit `SH` of the four plane bytes at `BI` (R53, R64). -/
theorem State.pixel_cursor (s : State) :
    pixel s.inBuf s.n.toNat s.cursor =
      palMap (unpack1
        (s.byteAt (8 + s.bi.toNat)) (s.byteAt (8 + s.n.toNat + s.bi.toNat))
        (s.byteAt (8 + 2 * s.n.toNat + s.bi.toNat)) (s.byteAt (8 + 3 * s.n.toNat + s.bi.toNat))
        s.sh) := by
  rw [pixel, s.byteIndexOf_cursor, s.shiftOf_cursor, BitVec.ofNat_toNat, BitVec.setWidth_eq]
  rfl

/-- `Advance` in BUSY as one record, its conditions on `SH` and on the exact successor of `BI`. -/
theorem State.advance_eq_of_busy {s : State} (hb : s.phase = .busy)
    (hi : s.bi.toNat < s.n.toNat) :
    s.advance =
      { s with
        sh := if s.sh = 0 then 7 else s.sh - 1
        bi := if s.sh = 0 then s.bi + 1 else s.bi
        phase := if s.sh = 0 ∧ s.bi.toNat + 1 = s.n.toNat then .done else .busy } := by
  by_cases hsh : s.sh = 0
  · have hsh0 := (sh_eq_zero s.sh).1 hsh
    by_cases hlast : s.bi.toNat + 1 = s.n.toNat
    · rw [State.advance_last hsh0 ((bi_succ_eq hi).2 hlast), if_pos hsh, if_pos hsh,
        if_pos ⟨hsh, hlast⟩]
    · rw [State.advance_next hsh0 (mt (bi_succ_eq hi).1 hlast), if_pos hsh, if_pos hsh,
        if_neg fun h => hlast h.2, ← hb]
  · have hpos : 0 < s.sh.toNat := Nat.pos_of_ne_zero (mt (sh_eq_zero s.sh).2 hsh)
    rw [State.advance_inner hpos, if_neg hsh, if_neg hsh, if_neg fun h => hsh h.1, ← hb]

/-- Settles O23: the pixel at the cursor is appended and the cursor advances. -/
theorem pixstepEmitsPixelAtCursor : Obligations.PixstepEmitsPixelAtCursor := by
  intro s hb hi hp
  rw [exec, execPixstep_busy hb hi hp, State.outAppend_advance, s.pixel_cursor,
    State.advance_eq_of_busy hb hi]
  rfl

/-! PIXSTEP in a consistent state -/

/-- A consistent BUSY state always has its pixel. -/
theorem State.BusyOk.exec_pixstep {s : State} (h : s.BusyOk) (hb : s.phase = .busy) :
    exec .pixstep s = .next s.afterPixel := execPixstep_busy hb h.inBounds h.present

theorem State.BusyOk.out_length {s : State} (h : s.BusyOk) : s.out.length = s.cursor := by
  rw [h.outPrefix, pixels_length]

/-- Settles O24: `OUT` is the image up to the cursor, and each case of the move is read off
`Advance`. -/
theorem cursorAdvancesPixelByPixel : Obligations.CursorAdvancesPixelByPixel := by
  intro s hs hb
  have hok := hs.busy hb
  have hi := hok.inBounds
  have hmove := State.advance_eq_of_busy hb hi
  have hphase : s.afterPixel.phase =
      if s.sh = 0 ∧ s.bi.toNat + 1 = s.n.toNat then .done else .busy := congrArg State.phase hmove
  have hbi : s.afterPixel.bi = if s.sh = 0 then s.bi + 1 else s.bi := congrArg State.bi hmove
  have hsh : s.afterPixel.sh = if s.sh = 0 then 7 else s.sh - 1 := congrArg State.sh hmove
  simp only [sh_eq_zero] at hphase hbi hsh
  refine ⟨hok.out_length, s.afterPixel, hok.exec_pixstep hb, List.length_append,
    State.advance_cursor hi, ?_, fun hpos => ?_, fun hzero => ?_, fun hzero hlt => ?_,
    fun hzero hlast => ?_⟩
  · rw [hbi]
    split
    · rw [bi_succ hi]
      exact hi
    · exact hi.le
  · rw [hsh, hbi, hphase, if_neg hpos.ne', if_neg hpos.ne', if_neg fun h => hpos.ne' h.1]
    exact ⟨sh_pred hpos, rfl, rfl⟩
  · rw [hsh, hbi, if_pos hzero, if_pos hzero]
    exact ⟨rfl, bi_succ hi⟩
  · rw [hphase, if_neg fun h => hlt.ne h.2]
  · rw [hphase, if_pos ⟨hzero, hlast⟩]

/-- Settles O25: at `(N - 1, 0)` the cursor is at the last pixel, after which DONE promises the
rest. -/
theorem lastPixelCompletesTheImage : Obligations.LastPixelCompletesTheImage := by
  intro s hs hb hbi hsh
  have hok := hs.busy hb
  have hi := hok.inBounds
  have hlast : s.AtLastPixel := ⟨(sh_eq_zero s.sh).1 hsh, (bi_succ_eq hi).2 (by omega)⟩
  have hdone := State.DoneOk_afterPixel hok hlast
  have hoffset : s.errOffset = 0 := hs.offset (by simp [hok.errCode])
  exact ⟨s.afterPixel, hok.exec_pixstep hb, State.advance_phase_of_last hlast, hdone.bi, rfl,
    hdone.sh, hdone.outLength, hdone.errCode, hoffset⟩

/-- Settles O26: PIXSTEP is not enabled outside BUSY (log 8). -/
theorem pixstepOutsideBusyChangesNothing : Obligations.PixstepOutsideBusyChangesNothing :=
  fun _ hq => execPixstep_quiescent hq

end Sys2Proof.Machine
end

section
/-! Which steps change PHASE, and what holds without them (R62, R66, R67, R70, R78, R85). -/

namespace Sys2Proof.Machine

/-! The registers across the acts that write none of them -/

/-- `t` shows what `s` shows in the registers S0 to S8 (R9 to R17). -/
structure State.SameRegisters (s t : State) : Prop where
  phase : t.phase = s.phase
  errCode : t.errCode = s.errCode
  errOffset : t.errOffset = s.errOffset
  columns : t.columns = s.columns
  rows : t.rows = s.rows
  n : t.n = s.n
  bi : t.bi = s.bi
  sh : t.sh = s.sh
  out : t.out = s.out

/-- The input, the host's acts and the result port are no registers. -/
theorem State.SameRegisters_of_others (s : State) (m : List Host.Cell) (l : BitVec 64)
    (acts : List HostAct) (v : DatapathResult) :
    s.SameRegisters { s with inBuf := m, len := l, host := acts, result := v } :=
  ⟨rfl, rfl, rfl, rfl, rfl, rfl, rfl, rfl, rfl⟩

/-- A step writes the registers only by PIXSTEP, START or RESET; `u` is the state with the host act,
if any, taken off the list. -/
theorem step_registers {s t : State} (h : step s = .next t) :
    (∃ u, (s.host = [] ∨ ∃ rest, s.host = .command 0#2 :: rest) ∧ s.SameRegisters u ∧
      execPixstep u = .next t) ∨
    (∃ rest, s.host = .command 1#2 :: rest ∧ execStart (s.setHost rest) = .next t) ∨
    (∃ rest, s.host = .command 2#2 :: rest ∧ t = (s.setHost rest).resetBlock) ∨
    s.SameRegisters t := by
  obtain ⟨u, hu, hpix⟩ | hstart | hreset | ⟨bytes, rest, -, hload⟩ | ⟨a, b, rest, -, hwrite⟩ |
    ⟨rest, -, rfl⟩ | ⟨act, rest, v, -, -, rfl⟩ := step_cases h
  · obtain ⟨hhost, rfl⟩ | ⟨rest, hhost, rfl⟩ := hu
    · exact .inl ⟨u, .inl hhost, State.SameRegisters_of_others u _ _ _ _, hpix⟩
    · exact .inl ⟨_, .inr ⟨rest, hhost⟩, State.SameRegisters_of_others s _ _ rest _, hpix⟩
  · exact .inr (.inl hstart)
  · exact .inr (.inr (.inl hreset))
  · obtain ⟨-, -, rfl⟩ := hostLoad_cases hload
    exact .inr (.inr (.inr (State.SameRegisters_of_others s _ _ rest _)))
  · obtain ⟨-, -, rfl⟩ := hostWriteByte_cases hwrite
    exact .inr (.inr (.inr (State.SameRegisters_of_others s _ _ rest _)))
  · exact .inr (.inr (.inr (State.SameRegisters_of_others s _ _ rest _)))
  · exact .inr (.inr (.inr (State.SameRegisters_of_others s _ _ rest v)))

/-! PHASE across START and PIXSTEP -/

theorem State.beginTransaction_phase (s : State) (h : HdrResult) :
    (s.beginTransaction h).phase = .busy ∨ (s.beginTransaction h).phase = .error := by
  cases hok : h.ok with
  | true => exact .inl (by rw [State.beginTransaction_of_ok hok]; rfl)
  | false => exact .inr (by rw [State.beginTransaction_of_failed hok]; rfl)

/-- PIXSTEP changes PHASE only at the last pixel, and then to DONE (R66). -/
theorem execPixstep_changes_phase {s t : State} (h : execPixstep s = .next t)
    (hne : t.phase ≠ s.phase) : s.phase = .busy ∧ s.AtLastPixel ∧ t.phase = .done := by
  obtain ⟨hb, rfl⟩ | ⟨-, rfl⟩ := execPixstep_cases h
  · by_cases hlast : s.AtLastPixel
    · exact ⟨hb, hlast, State.advance_phase_of_last hlast⟩
    · exact absurd (State.advance_phase_of_not_last hlast) hne
  · exact absurd rfl hne

/-- Settles O39: START, the last PIXSTEP and RESET, since no other step writes PHASE. -/
theorem onlyTheseEventsChangePhase : Obligations.OnlyTheseEventsChangePhase := by
  intro s t h hne
  obtain ⟨u, hhost, hsame, hpix⟩ | ⟨rest, hhost, hstart⟩ | ⟨rest, hhost, rfl⟩ | hsame :=
    step_registers h
  · rw [← hsame.phase] at hne
    obtain ⟨hb, ⟨hsh, hbi⟩, hdone⟩ := execPixstep_changes_phase hpix hne
    rw [hsame.phase] at hb
    rw [← sh_eq_zero, hsame.sh] at hsh
    rw [hsame.bi, hsame.n] at hbi
    exact .inr (.inl ⟨hdone, hb, hsh, hbi, hhost⟩)
  · obtain ⟨hq, rfl⟩ := execStart_cases hstart
    exact .inl ⟨State.beginTransaction_phase _ _, hq, rest, hhost⟩
  · exact .inr (.inr ⟨rfl, rest, hhost⟩)
  · exact absurd hsame.phase hne

/-- Settles O40: without START and RESET only PIXSTEP could write a register, and it is not enabled
outside BUSY. -/
theorem quiescentPhasesHold : Obligations.QuiescentPhasesHold := by
  intro s t hq hacts h
  have hsame : s.SameRegisters t := by
    obtain ⟨u, -, hsame, hpix⟩ | ⟨rest, hhost, -⟩ | ⟨rest, hhost, -⟩ | hsame := step_registers h
    · rw [execPixstep_quiescent (hsame.phase ▸ hq)] at hpix
      exact Host.Outcome.next.inj hpix ▸ hsame
    · exact absurd hhost (hacts rest).1
    · exact absurd hhost (hacts rest).2
    · exact hsame
  obtain ⟨hphase, hcode, hoffset, hcolumns, hrows, hn, hbi, hsh, hout⟩ := hsame
  exact ⟨hphase, hcode, hoffset, hcolumns, hrows, hn, hbi, hsh, hout⟩

/-- Settles O7: the step takes the act and runs no operation. -/
theorem holdOnlyDelays : Obligations.HoldOnlyDelays := fun _ _ hhost => step_hold hhost

end Sys2Proof.Machine
end

section
/-! Whole transactions, from START and from any place of a running one (R68, R70, R71). -/

namespace Sys2Proof.Machine

/-! What a run of PIXSTEPs leaves unchanged -/

/-- PIXSTEP writes PHASE, `OUT` and the cursor, and nothing else (R64, R65). -/
theorem execPixstep_frame {s t : State} (h : execPixstep s = .next t) :
    t = { s with phase := t.phase, out := t.out, bi := t.bi, sh := t.sh } := by
  obtain ⟨-, rfl⟩ | ⟨-, rfl⟩ := execPixstep_cases h
  · rfl
  · rfl

theorem pixsteps_succ_cases {s t : State} {k : Nat} (h : pixsteps (k + 1) s = .next t) :
    ∃ u, execPixstep s = .next u ∧ pixsteps k u = .next t := by
  cases hu : execPixstep s with
  | next u => exact ⟨u, rfl, (pixsteps_succ hu k).symm.trans h⟩
  | fault f => simp [pixsteps, exec, hu] at h
  | refused r => simp [pixsteps, exec, hu] at h

theorem pixsteps_frame {k : Nat} {s t : State} (h : pixsteps k s = .next t) :
    t = { s with phase := t.phase, out := t.out, bi := t.bi, sh := t.sh } := by
  induction k generalizing s with
  | zero => exact Host.Outcome.next.inj h ▸ rfl
  | succ k ih =>
    obtain ⟨u, hu, hrun⟩ := pixsteps_succ_cases h
    have ht := ih hrun
    rw [execPixstep_frame hu] at ht
    exact ht

/-! What a run of PIXSTEPs emits -/

/-- If `OUT` was the image up to the cursor, it is the image up to `k` pixels further. -/
theorem State.Emits.out_eq_pixels {s t : State} {k : Nat} (h : s.Emits k t)
    (hs : s.out = pixels s.inBuf s.n.toNat s.cursor) :
    t.out = pixels s.inBuf s.n.toNat (s.cursor + k) := by
  rw [h.out, hs, pixels, pixels, ← List.map_append, List.range_eq_range', List.range_eq_range',
    ← List.range'_append_1, Nat.zero_add]

theorem pixels_take (m : List Host.Cell) (n : Nat) {k total : Nat} (h : k ≤ total) :
    (pixels m n total).take k = pixels m n k := by
  rw [pixels, pixels, ← List.map_take, List.take_range, Nat.min_eq_left h]

/-- Before the last pixel the block is BUSY. -/
theorem State.Emits.phase_busy {s t : State} {k : Nat} (h : s.Emits k t)
    (hk : s.cursor + k < 8 * s.n.toNat) : t.phase = .busy := by
  rw [h.inTransaction.phase, h.n, h.cursor, if_neg hk.ne]

/-- After the last pixel the block is DONE, with the cursor at the left edge past the planes
(R66). -/
theorem State.Emits.at_end {s t : State} {k : Nat} (h : s.Emits k t)
    (hk : s.cursor + k = 8 * s.n.toNat) : t.phase = .done ∧ t.bi = s.n ∧ t.sh = 7 := by
  have hcursor : t.cursor = flatIndex s.n.toNat 7 := by
    rw [h.cursor, hk]
    rfl
  have hbi : t.bi.toNat = s.n.toNat := by
    rw [← t.byteIndexOf_cursor, hcursor, byteIndexOf_flatIndex]
  have hsh : t.sh.toNat = 7 := by
    rw [← t.shiftOf_cursor, hcursor, shiftOf_flatIndex _ le_rfl]
  refine ⟨?_, BitVec.eq_of_toNat_eq hbi, BitVec.eq_of_toNat_eq hsh⟩
  rw [h.inTransaction.phase, h.n, h.cursor, if_pos hk]

/-- As many PIXSTEPs as there are pixels left leave the whole image in DONE, with everything but the
cursor, PHASE and `OUT` as it was (R66, R68). -/
theorem pixsteps_to_done {s : State} (hb : s.phase = .busy) (hok : s.BusyOk) :
    pixsteps s.pixelsLeft s = .next
      { s with
        phase := .done, out := pixels s.inBuf s.n.toNat (8 * s.n.toNat), bi := s.n, sh := 7 } := by
  have hall : s.cursor + s.pixelsLeft = 8 * s.n.toNat :=
    Nat.add_sub_of_le (State.cursor_lt hok.inBounds).le
  obtain ⟨t, hrun, hemits⟩ :=
    (State.InTransaction_of_busy hb hok.inBounds hok.present).pixsteps_emit s.pixelsLeft hall.le
  obtain ⟨hphase, hbi, hsh⟩ := hemits.at_end hall
  have hout := hemits.out_eq_pixels hok.outPrefix
  rw [hall] at hout
  rw [hrun, pixsteps_frame hrun, hphase, hbi, hsh, hout]

/-- Fewer PIXSTEPs than there are pixels left leave the block BUSY, `OUT` the image up to there. -/
theorem pixsteps_busy {s : State} (hb : s.phase = .busy) (hok : s.BusyOk) {k : Nat}
    (hk : k < s.pixelsLeft) :
    ∃ t, pixsteps k s = .next t ∧ t.phase = .busy ∧
      t.out = pixels s.inBuf s.n.toNat (s.cursor + k) := by
  have hlt : s.cursor + k < 8 * s.n.toNat := Nat.add_lt_of_lt_sub' hk
  obtain ⟨t, hrun, hemits⟩ :=
    (State.InTransaction_of_busy hb hok.inBounds hok.present).pixsteps_emit k hlt.le
  exact ⟨t, hrun, hemits.phase_busy hlt, hemits.out_eq_pixels hok.outPrefix⟩

/-! START and its PIXSTEPs -/

/-- DECODE fails on refused headers only, with HDRCHECK's code and offset. -/
theorem decodeRef_eq_error {p : DimPolicy} {m : List Host.Cell} {l : BitVec 64} {c : ErrCode}
    {o : BitVec 64} (h : decodeRef p m l = .error (c, o)) :
    (headerOf p m l).ok = false ∧ c = (headerOf p m l).code ∧ o = (headerOf p m l).offset := by
  cases hok : (headerOf p m l).ok with
  | true =>
    rw [decodeRef_of_ok hok] at h
    cases h
  | false =>
    rw [decodeRef_of_failed hok] at h
    cases h
    exact ⟨rfl, rfl, rfl⟩

/-- Settles O50: a refused header ends at START, and an accepted one is at the first pixel of the
image, all of whose pixels the PIXSTEPs emit. -/
theorem startThenPixstepsRefineDecode : Obligations.StartThenPixstepsRefineDecode := by
  intro s hq h
  constructor
  · intro c o herr
    obtain ⟨hok, rfl, rfl⟩ := decodeRef_eq_error herr
    rw [exec, execStart_quiescent hq, State.beginTransaction_of_failed hok]
    rfl
  · intro seq hseq
    obtain ⟨hok, rfl⟩ := decodeRef_eq_ok hseq
    have hbusy : (s.loadHeader h).enterBusy.BusyOk := State.BusyOk_of_accepted hok
    have hcursor : (s.loadHeader h).enterBusy.cursor = 0 := rfl
    have hleft : (s.loadHeader h).enterBusy.pixelsLeft = 8 * h.n.toNat := rfl
    refine ⟨(s.loadHeader h).enterBusy, ?_, fun k hk => ?_, ?_⟩
    · rw [exec, execStart_quiescent hq, State.beginTransaction_of_ok hok]
    · obtain ⟨t, hrun, hphase, hout⟩ := pixsteps_busy rfl hbusy (hk.trans_eq hleft.symm)
      rw [hcursor, Nat.zero_add] at hout
      exact ⟨t, hrun, hphase, hout.trans (pixels_take _ _ hk.le).symm⟩
    · exact pixsteps_to_done rfl hbusy

/-! A running transaction with holds -/

theorem runSteps_succ {s t : State} (h : step s = .next t) (k : Nat) :
    runSteps (k + 1) s = runSteps k t := by
  rw [runSteps, h]

/-- `j` holds at the head of the list of acts take `j` steps and nothing else (R70). -/
theorem runSteps_holds (j m : Nat) (rest : List HostAct) {s : State}
    (h : s.host = List.replicate j .hold ++ rest) :
    runSteps (j + m) s = runSteps m (s.setHost rest) := by
  induction j generalizing s with
  | zero =>
    obtain rfl : s.host = rest := h
    rw [Nat.zero_add, State.setHost_self]
  | succ j ih =>
    rw [Nat.succ_add, runSteps_succ (step_hold h), ih rfl, State.setHost_setHost]

/-- With no act of the host left, every step is a PIXSTEP. -/
theorem runSteps_eq_pixsteps {s : State} (h : s.host = []) (k : Nat) :
    runSteps k s = pixsteps k s := by
  induction k generalizing s with
  | zero => rfl
  | succ k ih =>
    rw [runSteps, pixsteps, step_no_host h]
    cases hu : exec .pixstep s with
    | next u => exact ih ((exec_sameOutside hu).host.trans h)
    | fault f => rfl
    | refused r => rfl

/-- Settles O51: the holds first, which leave the transaction where it is, and then the pixels. -/
theorem heldTransactionStillFinishes : Obligations.HeldTransactionStillFinishes := by
  intro s k hs hb hhost
  have hb' : (s.setHost []).phase = .busy := hb
  have hok' : (s.setHost []).BusyOk := (State.Inv_setHost hs []).busy hb'
  have hrun : ∀ m, runSteps (k + m) s = pixsteps m (s.setHost []) := fun m => by
    rw [runSteps_holds k m [] (by rw [hhost, List.append_nil]), runSteps_eq_pixsteps rfl]
  have hheader := (hs.busy hb).header
  refine ⟨⟨_, (hrun _).trans (pixsteps_to_done hb' hok'), rfl, hok'.errCode, ?_⟩, fun j hj => ?_⟩
  · rw [decodeRef_of_ok (by rw [hheader]), hheader]
    rfl
  · rcases le_total k j with hkj | hjk
    · obtain ⟨m, rfl⟩ := Nat.exists_eq_add_of_le hkj
      obtain ⟨t, ht, hphase, -⟩ := pixsteps_busy hb' hok' (Nat.lt_of_add_lt_add_left hj)
      exact ⟨t, (hrun m).trans ht, hphase⟩
    · obtain ⟨m, rfl⟩ := Nat.exists_eq_add_of_le hjk
      exact ⟨_, runSteps_holds j 0 (List.replicate m .hold)
        (by rw [hhost, List.replicate_append_replicate]), hb⟩

end Sys2Proof.Machine
end

section
/-! The errors START records, by the bytes of `IN`, and that BUSY leads to none (R73 to R75, R77,
R79). -/

namespace Sys2Proof.Machine

/-! START's checks, read from the bytes of `IN` -/

theorem bitVec_append_inj {v w : Nat} {x x' : BitVec v} {y y' : BitVec w} :
    x ++ y = x' ++ y' ↔ x = x' ∧ y = y' := by
  refine ⟨fun h => ⟨?_, ?_⟩, by rintro ⟨rfl, rfl⟩; rfl⟩
  · simpa only [BitVec.extractLsb'_append_eq_left] using congrArg (·.extractLsb' w v) h
  · simpa only [BitVec.extractLsb'_append_eq_right] using congrArg (·.extractLsb' 0 w) h

theorem State.magicPresent_iff (s : State) :
    s.MagicPresent ↔ hdrMagic (headerWordOf s.inBuf) = magicWord := by
  have hbytes : magicWord = 0x50#8 ++ 0x49#8 ++ 0x43#8 ++ 0x00#8 := rfl
  rw [hdrMagic_headerWordOf, hbytes, bitVec_append_inj, bitVec_append_inj, bitVec_append_inj,
    and_assoc, and_assoc]
  rfl

theorem State.dimOk_header_iff (s : State) :
    dimOk s.cfg.dimPolicy (hdrColumns (headerWordOf s.inBuf)) (hdrRows (headerWordOf s.inBuf)) =
        true ↔
      DimsAccepted s.cfg.dimPolicy s.fileColumns s.fileRows := by
  rw [dimOk_iff, s.hdrColumns_toNat, s.hdrRows_toNat]

/-! START's writes on an error -/

/-- Without a header there are no dimensions to record (R44, R73). -/
theorem execStart_short {s : State} (hq : s.phase ≠ .busy) (hshort : s.len.toNat < headerLength) :
    execStart s = .next (s.afterError .truncatedInput s.len 0 0) := by
  rw [execStart_quiescent hq, headerOf, hdrCheck_short hshort]
  rfl

/-- A refused record of the buffer's header word is recorded with the dimensions in its bytes (R62,
R76). -/
theorem execStart_refused {s : State} {code : ErrCode} {offset : BitVec 64} (hq : s.phase ≠ .busy)
    (h : hdrCheck s.cfg.dimPolicy (headerWordOf s.inBuf) s.len =
      hdrRecord (headerWordOf s.inBuf) false code offset) :
    execStart s = .next (s.afterError code offset s.fileColumns s.fileRows) := by
  rw [execStart_quiescent hq, headerOf, h, hdrRecord_eq_ofNat, s.hdrColumns_toNat,
    s.hdrRows_toNat]
  rfl

/-- Settles O15: HDRCHECK's equation for each cause, its hypotheses read from the bytes of `IN`. -/
theorem startRecordsFormatErrors : Obligations.StartRecordsFormatErrors := by
  intro s hq
  simp only [s.magicPresent_iff, ← s.dimOk_header_iff, ← s.requiredLength_header,
    Bool.not_eq_true]
  refine ⟨execStart_short hq, fun hlen hmagic => ?_, fun hlen hmagic hdims => ?_,
    fun hlen hmagic hdims hshort => ?_, rfl, rfl, rfl⟩
  · exact execStart_refused hq (hdrCheck_badMagic hlen hmagic)
  · exact execStart_refused hq (hdrCheck_unsupportedDimensions hlen hmagic hdims)
  · exact execStart_refused hq (hdrCheck_planesShort hlen hmagic hdims hshort)

/-! After START -/

/-- A pixel leaves the transaction running or finishes it (R65, R66). -/
theorem State.afterPixel_phase {s : State} (hb : s.phase = .busy) :
    s.afterPixel.phase = .busy ∨ s.afterPixel.phase = .done := by
  by_cases hlast : s.AtLastPixel
  · exact .inr (State.advance_phase_of_last hlast)
  · exact .inl ((State.advance_phase_of_not_last hlast).trans hb)

/-- Only START enters ERROR, and not from BUSY (R63, R79). -/
theorem step_busy_phase_ne_error {s t : State} (hb : s.phase = .busy) (h : step s = .next t) :
    t.phase ≠ .error := by
  intro herror
  obtain ⟨-, hq, -⟩ | ⟨hdone, -⟩ | ⟨hidle, -⟩ :=
    onlyTheseEventsChangePhase s t h (by simp [hb, herror])
  · exact hq hb
  · simp [herror] at hdone
  · simp [herror] at hidle

/-- Settles O38: PIXSTEP writes no error register, and a consistent BUSY state has no error. -/
theorem noErrorAfterStart : Obligations.NoErrorAfterStart := by
  intro s hs hb
  have hok := hs.busy hb
  have hoffset : s.errOffset = 0 := hs.offset (by simp [hok.errCode])
  exact ⟨⟨s.afterPixel, hok.exec_pixstep hb, State.afterPixel_phase hb, hok.errCode, hoffset⟩,
    fun _ => step_busy_phase_ne_error hb⟩

end Sys2Proof.Machine
end

section
/-! What a pixel reads: one bit of each plane (R68, R83). -/

namespace Sys2Proof.Machine

/-- The bit of plane `k` that belongs to flat pixel `p` (R24, R50, R53). -/
def planeBit (m : List Host.Cell) (n k p : Nat) : Bool :=
  (Memory.lookup m (8 + k * n + byteIndexOf p)).getLsbD (shiftOf p)

/-- PIXEL is the palette at its four plane bits, intensity first and blue last (R51, R68). -/
theorem pixel_eq_palMap_planeBits (m : List Host.Cell) (n p : Nat) :
    pixel m n p =
      palMap (BitVec.ofBool (planeBit m n 3 p) ++ BitVec.ofBool (planeBit m n 2 p) ++
        BitVec.ofBool (planeBit m n 1 p) ++ BitVec.ofBool (planeBit m n 0 p)) := by
  have hs : shiftOf p < 8 := Nat.lt_succ_of_le (shiftOf_le p)
  simp only [pixel, unpack1, bitAt_ofNat _ hs, planeBit, Nat.zero_mul, Nat.one_mul, Nat.add_zero]

/-- Settles O48: equal plane bits give equal pixels. -/
theorem pixelDependsOnItsFourBits : Obligations.PixelDependsOnItsFourBits := by
  intro m m' n p hbits
  have h : ∀ k, k < 4 → planeBit m n k p = planeBit m' n k p := hbits
  rw [pixel_eq_palMap_planeBits, pixel_eq_palMap_planeBits, h 0 (by omega), h 1 (by omega),
    h 2 (by omega), h 3 (by omega)]

end Sys2Proof.Machine
end

section
/-! Reset, by command and at power-up, and what an unfinished transaction shows in `OUT` (R84, R85,
R89). -/

namespace Sys2Proof.Machine

/-! RESET -/

theorem exec_reset (s : State) : exec .reset s = .next s.resetBlock := rfl

/-- Settles O28: `resetBlock` writes the registers and the result port and nothing else. -/
theorem resetRestoresTheResetState : Obligations.ResetRestoresTheResetState :=
  fun s => ⟨s.resetBlock, exec_reset s, rfl⟩

/-! Power-up -/

/-- Power-up starts the block in what IDLE promises (R84). -/
theorem State.IdleOk_powerUp (p : DimPolicy) : (State.powerUp p).IdleOk :=
  ⟨rfl, rfl, rfl, rfl, rfl, rfl⟩

/-- STATUS reads 0 in IDLE without an error: both codes in it are 0 (R9, R10, R21). -/
theorem State.status_idle {s : State} (hp : s.phase = .idle) (hc : s.errCode = .none) :
    s.status = 0#32 := by
  apply BitVec.eq_of_toNat_eq
  rw [s.status_toNat, hp, hc]
  rfl

/-- Settles O29: the registers by what IDLE promises, the palette by its type, STATUS by its two
codes. -/
theorem powerUpValues : Obligations.PowerUpValues := by
  intro p
  obtain ⟨herr, hcol, hrow, hbi, hsh, hout⟩ := State.IdleOk_powerUp p
  exact ⟨rfl, herr, rfl, hcol, hrow, rfl, hbi, hsh, hout, (State.powerUp p).palRom.fixed,
    State.status_idle rfl herr, rfl, rfl⟩

/-- Settles O35: the empty input is in canonical form (log 3), and of the four phases only IDLE has
something to promise. -/
theorem powerUpIsConsistent : Obligations.PowerUpIsConsistent := by
  intro p
  have hphase : (State.powerUp p).phase = .idle := rfl
  exact
    { memory := Memory.wfFrom_nil _ _
      size := rfl
      offset := fun _ => rfl
      idle := fun _ => State.IdleOk_powerUp p
      busy := by simp [hphase]
      done := by simp [hphase]
      error := by simp [hphase] }

/-! `OUT` before DONE -/

theorem pixels_prefix (m : List Host.Cell) (n : Nat) {k total : Nat} (h : k ≤ total) :
    pixels m n k <+: pixels m n total := by
  rw [← pixels_take m n h]
  exact List.take_prefix k _

/-- The input of a running transaction decodes to the image of the dimensions the block holds
(R49, R68). -/
theorem State.BusyOk.decodeRef_eq {s : State} (h : s.BusyOk) :
    decodeRef s.cfg.dimPolicy s.inBuf s.len =
      .ok (pixels s.inBuf s.n.toNat (8 * s.n.toNat)) := by
  rw [decodeRef_of_ok (by rw [h.header]), h.header]

/-- Settles O49: in BUSY `OUT` is the image up to a cursor that has not passed its last pixel; in
ERROR the invariant has it empty. -/
theorem outIsPrefixUntilDone : Obligations.OutIsPrefixUntilDone := by
  refine fun s hs => ⟨fun hb => ?_, fun he => (hs.error he).out⟩
  have hok := hs.busy hb
  have hcursor : s.cursor < 8 * s.n.toNat := State.cursor_lt hok.inBounds
  refine ⟨pixels s.inBuf s.n.toNat (8 * s.n.toNat), hok.decodeRef_eq, ?_, ?_, pixels_length ..⟩
  · rw [hok.outPrefix]
    exact pixels_prefix s.inBuf s.n.toNat hcursor.le
  · rw [hok.out_length, pixels_length]
    exact hcursor

end Sys2Proof.Machine
end
